-- ==== Sys2Proof/Word.lean ====
section
/-! DEFINITION. The bit vectors of the block, one name per thing the spec measures in bits
(00_scope.md R7 to R11; 10_state.md R24, R25; 20_memory.md R40). All are unsigned (R10). -/

namespace Sys2Proof

/-- One byte of an encoded sequence (R13). -/
abbrev Byte := BitVec 8

/-- The 7 data bits of one encoded byte (R8: `G = 7`). -/
abbrev Group := BitVec 7

/-- A Value on a port: `W = 64` bits, unsigned (R7). -/
abbrev Value := BitVec 64

/-- A length or consumed field (R9: `ENC_LENW = LENW = 4`). -/
abbrev Len := BitVec 4

/-- The encoder's output buffer ENC_OUT, 10 bytes, byte k at bits 8k+7 to 8k (R40, R42). -/
abbrev EncOut := BitVec 80

/-- The decoder's input buffer DEC_IN, 15 bytes, byte k at bits 8k+7 to 8k (R40, R41). -/
abbrev DecIn := BitVec 120

end Sys2Proof
end

