-- ==== Sys2Proof/Config.lean ====
section
/-! DEFINITION. What an implementation of the block fixes: the parameters of 00_scope.md R7 to R9, and the
values the spec leaves open, as constants that have no body, so that a claim about them holds whatever they
are. -/

namespace Sys2Proof.Config

/-- `W`, the width of a Value in bits (R7). -/
abbrev valueBits : Nat := 64

/-- `G`, data bits per encoded byte (R8). -/
abbrev groupBits : Nat := 7

/-- `MAXBYTES = ceil(W / 7)`, the bytes of ENC_OUT (R8, R40). -/
abbrev maxBytes : Nat := 10

/-- `DEC_BUF = 2^LENW - 1`, the bytes of DEC_IN (R9, R40). -/
abbrev decBuf : Nat := 15

/-- FREE VALUE (log entry 2). How many further clock edges the encoder lets pass, after the edge that accepts its
`k`-th request, a request of the value `v`, before it raises `enc_rsp_valid`: finite, not specified, not the same from
one transaction to the next, and perhaps dependent on the operand (70_reset_and_hazards.md R188, R193; decision
D14). -/
opaque encLatency (k : Nat) (v : Value) : Nat

/-- FREE VALUE (log entry 2). The same for the decoder and `dec_rsp_valid`. -/
opaque decLatency (k : Nat) (n : Len) (buf : DecIn) : Nat

/-- FREE VALUE (log entry 3). `BYTELEN_ZERO`, 0 or 1: what the byte-length helper answers for 0
(00_scope.md R9, 42_helpers.md R141, 93_implementation_defined.md U4). No operation of the block reads it. -/
opaque byteLenZero : Fin 2

end Sys2Proof.Config
end

