-- ==== Sys2Proof/Syntax.lean ====
section
/-! DEFINITION. What travels through the block's ports, as syntax: the four rows of opcode_table.json
(30_encoding.md R60, R73), the request payloads (R68, R70), the response payloads (R69, R71), the status
names (R72), and the result type of the reference function DEC (41_decode.md R111). -/

namespace Sys2Proof

/-- One constructor for each row of opcode_table.json. The first two are the block's operations; the last two are
the two forms of an encoded byte, which the DECODE loop reads one a pass (R60, R73). -/
inductive Instr where
  /-- ENCODE of a Value (R68, R96). -/
  | encode (value : Value)
  /-- DECODE of the first `len` bytes of `buf` (R70, R121). -/
  | decode (len : Len) (buf : DecIn)
  /-- VARINT.CONT, a continuation byte with its 7 data bits (R60). -/
  | varintCont (d : Group)
  /-- VARINT.FINAL, a final byte with its 7 data bits (R60). -/
  | varintFinal (d : Group)
deriving DecidableEq, Repr

/-- Where bits arrive, which is what tells the rows of the table apart (R73): a request on `enc_req_*`, a
request on `dec_req_*`, or a byte of a sequence inside DEC_IN. -/
inductive Channel where
  | encReq
  | decReq
  | wireByte
deriving DecidableEq, Repr

/-- The bits that arrive, with the place they arrive at: ENC_REQ is 64 bits (R68), DEC_REQ is 124 bits
`{len, buf}` (R70), an encoded byte is 8 bits (R60). -/
inductive Packet where
  | encReq (w : BitVec 64)
  | decReq (w : BitVec 124)
  | wireByte (b : Byte)
deriving DecidableEq, Repr

/-- The request of DECODE, field by field (R70). -/
structure DecReq where
  len : Len
  buf : DecIn
deriving DecidableEq, Repr

/-- The four status names of R72; `Status.code` (Machine/Flags.lean) gives the 2-bit code. -/
inductive Status where
  | ok
  /-- Reserved: neither unit produces it (60_exceptions.md R151). -/
  | invalidInput
  | malformedEncoding
  | valueOverflow
deriving DecidableEq, Repr

/-- The response of ENCODE and the fields of `ENC_R` (10_state.md R24, 30_encoding.md R69). -/
structure EncRsp where
  status : Status
  len : Len
  bytes : EncOut
deriving DecidableEq, Repr

/-- The response of DECODE and the fields of `DEC_R` (10_state.md R25, 30_encoding.md R71). -/
structure DecRsp where
  status : Status
  consumed : Len
  value : Value
deriving DecidableEq, Repr

/-- The result of the reference function DEC over unbounded naturals (41_decode.md R111). -/
inductive RefResult where
  | malformed
  | ok (value consumed : Nat)
deriving DecidableEq, Repr

end Sys2Proof
end

