-- ==== Sys2Proof/WellFormed.lean ====
section
/-! DEFINITION. The checks the spec makes on what is written: instructions (none is ill-formed: R68, R70, R76),
encoded byte sequences (R61, R64, R65, R66) and response payloads (R76). -/

namespace Sys2Proof

/-- Nothing on the request side is reserved: all 2^64 ENCODE payloads, all 2^124 DECODE payloads and all 256
bytes are legal (R60, R68, R70, R76). The widths are in the types, so no term of `Instr` is ill-formed. -/
def Instr.wf : Instr → Bool
  | .encode _ => true
  | .decode _ _ => true
  | .varintCont _ => true
  | .varintFinal _ => true

/-- A sequence that holds a final byte (R64). -/
def isTerminated (s : List Byte) : Bool := s.any fun b => !b.msb

/-- An Encoded form: zero or more continuation bytes, then exactly one final byte, the last (R61). -/
def isEncodedForm : List Byte → Bool
  | [] => false
  | [b] => !b.msb
  | b :: s => b.msb && isEncodedForm s

/-- A minimal Encoded form: of length 1, or with a last byte that is not zero (R65). -/
def isMinimal (s : List Byte) : Bool :=
  isEncodedForm s && (s.length == 1 || s.getLast? != some 0)

/-- The ENCODE response values that R76 allows: status OK; `len` from 1 to 10; every byte before the last has
bit 7 set, the last has it clear, and the padding after it is zero. -/
def EncRsp.legal (r : EncRsp) : Bool :=
  r.status == .ok && 1 ≤ r.len.toNat && r.len.toNat ≤ 10 &&
  (List.range 10).all fun k =>
    let b := r.bytes.extractLsb' (8 * k) 8
    if k + 1 < r.len.toNat then b.msb
    else if k + 1 = r.len.toNat then !b.msb
    else b == 0

/-- The DECODE response values that R76 allows: never the reserved code 1; with OK at least one byte consumed;
with an error both other fields zero. -/
def DecRsp.legal (r : DecRsp) : Bool :=
  r.status != .invalidInput &&
  (if r.status = .ok then r.consumed != 0 else r.consumed == 0 && r.value == 0)

end Sys2Proof
end

