-- ==== Sys2Proof/Decode.lean ====
section
/-! DEFINITION. The instruction decoder and encoder. The channel selects the operation and there is no opcode
field (30_encoding.md R73); the payload layouts are R68 and R70, the two byte forms R60. The packing of the
response payloads (R69, R71) stands here too. -/

namespace Sys2Proof

/-! ### Bytes and numbers: the byte at position 0 is the low lane (R45) -/

/-- The number whose low byte is the first of the list. -/
def bytesToNat : List Byte → Nat
  | [] => 0
  | b :: s => b.toNat + 256 * bytesToNat s

/-- The low `n` bytes of a number, low byte first. -/
def natToBytes : Nat → Nat → List Byte
  | 0, _ => []
  | n + 1, w => BitVec.ofNat 8 w :: natToBytes n (w / 256)

/-! ### The two byte forms (R60) -/

/-- Bit 7 of an encoded byte, the continuation bit C. -/
def contBit (b : Byte) : Bool := b.getLsbD 7

/-- Bits 6 to 0 of an encoded byte, the data bits D. -/
def dataBits (b : Byte) : Group := b.extractLsb' 0 7

/-- `0x80 | g`, a continuation byte. -/
def contByte (g : Group) : Byte := 1#1 ++ g

/-- `g` with bit 7 clear, a final byte. -/
def finalByte (g : Group) : Byte := 0#1 ++ g

/-! ### The decoder -/

/-- Every byte is one of the two forms, told apart by bit 7 (R60). -/
def decodeByte (b : Byte) : Instr :=
  if contBit b then .varintCont (dataBits b) else .varintFinal (dataBits b)

/-- The instruction that a payload is, by the channel it arrives on; total (R68, R70, R73, R76). -/
def decodePacket : Packet → Instr
  | .encReq w => .encode w
  | .decReq w => .decode (w.extractLsb' 120 4) (w.extractLsb' 0 120)
  | .wireByte b => decodeByte b

/-- Why bytes are no payload of a channel. -/
inductive DecodeError where
  /-- The number of bytes is not that of the channel's payload. -/
  | wrongLength (expected got : Nat)
  /-- DEC_REQ is 124 bits: the 4 bits above them, in 16 whole bytes, are no part of it and are set. -/
  | paddingSet
deriving DecidableEq, Repr

/-- Whole bytes that hold a channel's payload: 64, 124 and 8 bits (R68, R70, R60). -/
def Channel.byteCount : Channel → Nat
  | .encReq => 8
  | .decReq => 16
  | .wireByte => 1

/-- The payload that bytes are, low byte first, or the name of what is wrong with them. -/
def packetOfBytes (c : Channel) (bs : List Byte) : Except DecodeError Packet :=
  if bs.length = c.byteCount then
    match c with
    | .encReq => .ok (.encReq (BitVec.ofNat 64 (bytesToNat bs)))
    | .decReq =>
      if bytesToNat bs < 2 ^ 124 then .ok (.decReq (BitVec.ofNat 124 (bytesToNat bs)))
      else .error .paddingSet
    | .wireByte => .ok (.wireByte (BitVec.ofNat 8 (bytesToNat bs)))
  else .error (.wrongLength c.byteCount bs.length)

/-- The decoder on bytes: total, and it rejects by name. -/
def decode (c : Channel) (bs : List Byte) : Except DecodeError Instr :=
  match packetOfBytes c bs with
  | .ok p => .ok (decodePacket p)
  | .error e => .error e

/-! ### The encoder -/

/-- Where an instruction's bits arrive. -/
def Instr.channel : Instr → Channel
  | .encode _ => .encReq
  | .decode _ _ => .decReq
  | .varintCont _ => .wireByte
  | .varintFinal _ => .wireByte

/-- The payload of an instruction (R68, R70, R60). -/
def encodePacket : Instr → Packet
  | .encode v => .encReq v
  | .decode len buf => .decReq (len ++ buf)
  | .varintCont d => .wireByte (contByte d)
  | .varintFinal d => .wireByte (finalByte d)

/-- A payload as whole bytes, low byte first. -/
def Packet.toBytes : Packet → List Byte
  | .encReq w => natToBytes 8 w.toNat
  | .decReq w => natToBytes 16 w.toNat
  | .wireByte b => [b]

/-- The bytes of an instruction. -/
def encode (i : Instr) : List Byte := (encodePacket i).toBytes

/-! ### The numbering of opcode_table.json -/

/-- The channel of a row of the table, by its width: 64 bits ENC_REQ, 124 bits (128 in whole bytes) DEC_REQ,
8 bits an encoded byte. -/
def tableChannel (nbits : Nat) : Option Channel :=
  if nbits = 64 then some .encReq
  else if nbits = 124 ∨ nbits = 128 then some .decReq
  else if nbits = 8 then some .wireByte
  else none

/-- The payload a table word is: its bytes, low byte first, given to the channel of the row's width. -/
def tablePacket (nbits w : Nat) : Option Packet :=
  match tableChannel nbits with
  | none => none
  | some c =>
    if w < 2 ^ nbits then
      match packetOfBytes c (natToBytes c.byteCount w) with
      | .ok p => some p
      | .error _ => none
    else none

/-- What the decoder reads from a word numbered as the table numbers it (bit 0 the least significant bit of the
payload). -/
def decodeTableWord (nbits w : Nat) : Option Instr :=
  (tablePacket nbits w).map decodePacket

/-- One row of opcode_table.json: where it arrives, and the bits that select it. -/
structure OpcodeRow where
  mnemonic : String
  channel : Channel
  width : Nat
  mask : Nat
  pattern : Nat
deriving DecidableEq, Repr

/-- The table's four rows (R73): the two operations have mask 0, the two byte forms are told apart by bit 7. -/
def opcodeTable : List OpcodeRow :=
  [ ⟨"ENCODE", .encReq, 64, 0, 0⟩,
    ⟨"DECODE", .decReq, 124, 0, 0⟩,
    ⟨"VARINT.CONT", .wireByte, 8, 0x80, 0x80⟩,
    ⟨"VARINT.FINAL", .wireByte, 8, 0x80, 0x00⟩ ]

/-- The row an instruction is of. -/
def Instr.mnemonic : Instr → String
  | .encode _ => "ENCODE"
  | .decode _ _ => "DECODE"
  | .varintCont _ => "VARINT.CONT"
  | .varintFinal _ => "VARINT.FINAL"

/-- The channel of a payload. -/
def Packet.channel : Packet → Channel
  | .encReq _ => .encReq
  | .decReq _ => .decReq
  | .wireByte _ => .wireByte

/-- The bits of a payload as a number. -/
def Packet.toNat : Packet → Nat
  | .encReq w => w.toNat
  | .decReq w => w.toNat
  | .wireByte b => b.toNat

/-- Whether a row selects a payload: the row's channel, and the masked bits equal to the row's pattern. -/
def OpcodeRow.selects (r : OpcodeRow) (p : Packet) : Bool :=
  r.channel == p.channel && (p.toNat &&& r.mask) == r.pattern

end Sys2Proof
end

