-- ==== Sys2Proof/Machine/State.lean ====
section
/-! DEFINITION. The state of the block and of its host side, the reasons a step can stop, and the state after
reset (10_state.md, 70_reset_and_hazards.md). State is plain data. -/

namespace Sys2Proof.Machine

/-- A response slot: EMPTY, or FULL with a response payload (10_state.md R23). `ENC_R.valid` and `DEC_R.valid` are 1
exactly when it is FULL, and the other fields have meaning only then (R24, R25), so an EMPTY slot holds none. -/
inductive Slot (α : Type) where
  | empty
  | full (r : α)
deriving DecidableEq, Repr

/-- The working registers of a loop implementation of ENCODE (10_state.md R32): the locals of 40_encode.md R92, which
exist only while the loop runs (00_scope.md R14), and the response the finished loop has built. Log entry 4. -/
inductive EncWork where
  | idle
  | looping (v : Value) (rem : Value) (k : Nat) (out : EncOut)
  | done (r : EncRsp)
deriving DecidableEq, Repr

/-- The working registers of a loop implementation of DECODE (10_state.md R32): the sampled request
(20_memory.md R47), the accumulator and the scan index of 41_decode.md R112, both unbounded naturals, and the
response the finished loop has built. Log entry 4. -/
inductive DecWork where
  | idle
  | looping (buf : DecIn) (n : Len) (acc : Nat) (i : Nat)
  | done (r : DecRsp)
deriving DecidableEq, Repr

/-- One unit: its response slot, the model's two fields for the free latency of R188 (`wait`, the clock edges that must
still pass before `*_rsp_valid` rises; `draws`, how many latencies have been drawn; log entry 2), and its working
registers. -/
structure UnitState (α ω : Type) where
  slot : Slot α
  wait : Nat
  draws : Nat
  work : ω
deriving DecidableEq, Repr

/-- `varint_encoder`. -/
abbrev EncUnit := UnitState EncRsp EncWork

/-- `varint_decoder`. -/
abbrev DecUnit := UnitState DecRsp DecWork

/-- The input ports of 10_state.md R33 in one clock cycle, as sampled at the rising edge of `clk` that ends it. -/
structure Pins where
  rst : Bool
  encReqValid : Bool
  encReqValue : Value
  encRspReady : Bool
  decReqValid : Bool
  decReqBuf : DecIn
  decReqLen : Len
  decRspReady : Bool
deriving DecidableEq, Repr

/-- A step of one unit in the relation of 10_state.md R23, as the host sees it: a request accepted, a response
received, or RESET. -/
inductive Event (ρ α : Type) where
  | req (q : ρ)
  | rsp (r : α)
  | reset
deriving DecidableEq, Repr

/-- The whole machine: the two units, and the host's side of the ports (10_state.md R20): what it drives in the
coming clock cycles, the current one first, and what it has seen of each unit, the latest first (log entries 1
and 5). -/
structure State where
  enc : EncUnit
  dec : DecUnit
  inputs : List Pins
  encLog : List (Event Value EncRsp)
  decLog : List (Event DecReq DecRsp)
deriving DecidableEq, Repr

/-- Why a step stops with a fault. Both are the same check: an access outside a buffer, which 20_memory.md R49 says
never happens. Safe: only a state that no run from reset reaches raises them. -/
inductive Fault where
  /-- Raised by `memWrite`, called by the encoder's loop pass, for a byte index outside ENC_OUT (R42). Safe. -/
  | encOutIndex (k : Nat)
  /-- Raised by `memRead`, called by the decoder's loop pass, for a byte index outside DEC_IN (R41). Safe. -/
  | decInIndex (i : Nat)
deriving DecidableEq, Repr

/-- Why a step or an operation is refused. -/
inductive Refusal where
  /-- Raised by `exec` for an instruction that has no meaning yet; no arm raises it now. Safe. -/
  | notModelled (mnemonic : String)
  /-- Raised by the software adapter `presentInteger` for a negative or over-wide integer: InvalidInput
  (60_exceptions.md R151, 93_implementation_defined.md U1, U2). No step of the block raises it. Safe. -/
  | invalidInput (v : Int)
deriving DecidableEq, Repr

/-- The outcome of a step of this machine. -/
abbrev Outcome := Host.Outcome State Fault Refusal

/-- A cycle in which the host drives nothing: no reset, no request, no readiness (log entry 1). -/
def Pins.quiet : Pins :=
  { rst := false, encReqValid := false, encReqValue := 0, encRspReady := false,
    decReqValid := false, decReqBuf := 0, decReqLen := 0, decRspReady := false }

/-- The state right after reset: both slots EMPTY, nothing in progress, and a host that has seen nothing and drives
nothing (10_state.md R34, 70_reset_and_hazards.md R181, R184). -/
def State.reset : State :=
  { enc := { slot := .empty, wait := 0, draws := 0, work := .idle }
    dec := { slot := .empty, wait := 0, draws := 0, work := .idle }
    inputs := []
    encLog := []
    decLog := [] }

end Sys2Proof.Machine
end

