-- ==== Sys2Proof/Machine/Flags.lean ====
section
/-! DEFINITION. The status of an operation. The block has no flags (10_state.md R28): the only outcome it reports is the
status field of a response (30_encoding.md R72, 60_exceptions.md R150). -/

namespace Sys2Proof

/-- The 2-bit status codes of R72. -/
def Status.code : Status → BitVec 2
  | .ok => 0
  | .invalidInput => 1
  | .malformedEncoding => 2
  | .valueOverflow => 3

/-- The name of a 2-bit status code: every code has one (R72). -/
def Status.ofCode (c : BitVec 2) : Status :=
  if c = 0 then .ok else if c = 1 then .invalidInput
  else if c = 2 then .malformedEncoding else .valueOverflow

/-- ENC_RSP as one vector of 86 bits, `{status, len, bytes}` (R69). -/
def EncRsp.pack (r : EncRsp) : BitVec 86 := r.status.code ++ r.len ++ r.bytes

/-- The fields of an ENC_RSP vector (R69). -/
def EncRsp.unpack (w : BitVec 86) : EncRsp :=
  { status := Status.ofCode (w.extractLsb' 84 2), len := w.extractLsb' 80 4, bytes := w.extractLsb' 0 80 }

/-- DEC_RSP as one vector of 70 bits, `{status, consumed, value}` (R71). -/
def DecRsp.pack (r : DecRsp) : BitVec 70 := r.status.code ++ r.consumed ++ r.value

/-- The fields of a DEC_RSP vector (R71). -/
def DecRsp.unpack (w : BitVec 70) : DecRsp :=
  { status := Status.ofCode (w.extractLsb' 68 2), consumed := w.extractLsb' 64 4, value := w.extractLsb' 0 64 }

namespace Machine

/-- `raise` for the decoder (00_scope.md R14): the response carries the error's status and zeros, and records
nothing else (41_decode.md R120; 60_exceptions.md R154, R156). This is the whole of taking an exception on this
block (R160): the slot becomes FULL with it. -/
def raiseError (e : Status) : DecRsp := { status := e, consumed := 0, value := 0 }

/-- `raise` for the encoder, which R156 gives to make `raise` total; no ENCODE raises anything (R151). -/
def raiseEncError (e : Status) : EncRsp := { status := e, len := 0, bytes := 0 }

/-- The end of a DECODE whose terminator was found: overflow is judged on the mathematical value, and only now
(41_decode.md R112, R119, R120). -/
def finishDecode (acc c : Nat) : DecRsp :=
  if 2 ^ Config.valueBits ≤ acc then raiseError .valueOverflow
  else { status := .ok, consumed := BitVec.ofNat 4 c, value := BitVec.ofNat 64 acc }

end Machine
end Sys2Proof
end

