-- ==== Sys2Proof/Machine/Ops.lean ====
section
/-! DEFINITION. The shared operations: the two buffer accesses, and what a unit can do with its slot: accept, deliver,
count down, reset (10_state.md R23; 20_memory.md R41, R42; 70_reset_and_hazards.md R181, R188). -/

namespace Sys2Proof.Machine

/-- Carry on from a next state; a fault or a refusal ends the step. -/
def andThen (o : Outcome) (f : State → Outcome) : Outcome :=
  match o with
  | .next s => f s
  | .fault r => .fault r
  | .refused r => .refused r

/-! ### Buffers (20_memory.md R40 to R42, R45) -/

/-- Byte `k` of a buffer, at bits 8k+7 to 8k. -/
def byteAt {w : Nat} (buf : BitVec w) (k : Nat) : Byte := buf.extractLsb' (8 * k) 8

/-- ENC_OUT with byte `k` replaced. -/
def setByte (out : EncOut) (k : Nat) (b : Byte) : EncOut :=
  (out &&& ~~~(BitVec.setWidth 80 (0xFF : Byte) <<< (8 * k))) ||| (BitVec.setWidth 80 b <<< (8 * k))

/-- `MemRead(DEC_IN, i, 1)` (R41). An index outside the 15 bytes faults; R49 says none occurs. -/
def memRead (buf : DecIn) (i : Nat) : Except Fault Byte :=
  if i < Config.decBuf then .ok (byteAt buf i) else .error (.decInIndex i)

/-- `MemWrite(ENC_OUT, k, 1, b)` (R42). An index outside the 10 bytes faults; R49 says none occurs. -/
def memWrite (out : EncOut) (k : Nat) (b : Byte) : Except Fault EncOut :=
  if k < Config.maxBytes then .ok (setByte out k b) else .error (.encOutIndex k)

/-! ### A unit and its slot (10_state.md R23) -/

/-- Accept a request whose response is `r`: the slot becomes `FULL(r)`, the latency drawn for it is `wait` (R188), and
the loop of the operation starts on `w`. -/
def UnitState.accept {α ω : Type} (wait : Nat) (r : α) (w : ω) (u : UnitState α ω) : UnitState α ω :=
  { slot := .full r, wait := wait, draws := u.draws + 1, work := w }

/-- Deliver the response: the slot becomes EMPTY. -/
def UnitState.deliver {α ω : Type} (u : UnitState α ω) : UnitState α ω := { u with slot := .empty }

/-- One clock edge nearer to `*_rsp_valid` (R188); once it is 1 it stays 1. -/
def UnitState.countDown {α ω : Type} (u : UnitState α ω) : UnitState α ω := { u with wait := u.wait - 1 }

/-- RESET: the slot becomes EMPTY and nothing of an operation in progress remains (R181, R182). -/
def UnitState.clear {α ω : Type} (idle : ω) (u : UnitState α ω) : UnitState α ω :=
  { slot := .empty, wait := 0, draws := u.draws, work := idle }

/-- Whether a slot is FULL, that is `ENC_R.valid` or `DEC_R.valid` (R24, R25). -/
def Slot.isFull {α : Type} : Slot α → Bool
  | .empty => false
  | .full _ => true

/-! ### The host's side -/

/-- The input ports in the current clock cycle: the next the host has, or a quiet cycle when it has none
(log entry 1). -/
def State.pins (s : State) : Pins := s.inputs.headD Pins.quiet

/-- The current cycle's inputs are used up. -/
def State.nextCycle (s : State) : State := { s with inputs := s.inputs.tail }

/-- The RESET step (10_state.md R23, 70_reset_and_hazards.md R181): both slots become EMPTY. -/
def resetUnits (s : State) : State :=
  { s with
    enc := s.enc.clear .idle
    dec := s.dec.clear .idle
    encLog := .reset :: s.encLog
    decLog := .reset :: s.decLog }

/-- ENC.RSP (R23): the host receives the response and the slot becomes EMPTY; with an EMPTY slot it is not
enabled. -/
def deliverEnc (s : State) : State :=
  match s.enc.slot with
  | .full r => { s with enc := s.enc.deliver, encLog := .rsp r :: s.encLog }
  | .empty => s

/-- DEC.RSP (R23), which is also the whole return from an error (60_exceptions.md R160). -/
def deliverDec (s : State) : State :=
  match s.dec.slot with
  | .full r => { s with dec := s.dec.deliver, decLog := .rsp r :: s.decLog }
  | .empty => s

end Sys2Proof.Machine
end

