-- ==== Sys2Proof/Machine/Operands.lean ====
section
/-! DEFINITION. Byte sequences and the reference functions on them: groups and their value, the terminator, ENC and DEC
over unbounded naturals, and how a payload's fields become operands (00_scope.md R12, R13, R15; 30_encoding.md R62 to
R65, R74; 40_encode.md R91; 41_decode.md R111). -/

namespace Sys2Proof.Machine

/-- `bit_length`: 0 for 0, otherwise the position of the highest set bit plus one (00_scope.md R12). -/
def bitLength (v : Nat) : Nat := if v = 0 then 0 else Nat.log2 v + 1

/-- Group `i` of a Value, bits 7i+6 to 7i (30_encoding.md R62). -/
def groupOf (v i : Nat) : Nat := (v >>> (7 * i)) &&& 0x7F

/-- The weighted sum of the groups of a sequence whose first byte stands at position `i` (R63). -/
def valueFrom (i : Nat) : List Byte → Nat
  | [] => 0
  | b :: s => ((dataBits b).toNat <<< (7 * i)) + valueFrom (i + 1) s

/-- `val(s)`, the value an Encoded form spells (R63). -/
def valueOf (s : List Byte) : Nat := valueFrom 0 s

/-- The terminator position: the least position of a byte with bit 7 clear (R64). -/
def terminator : List Byte → Option Nat
  | [] => none
  | b :: s => if contBit b then (terminator s).map (· + 1) else some 0

/-- The recursion of ENC (40_encode.md R91) with a bound on its depth. -/
def encWithin : Nat → Nat → List Byte
  | 0, v => [BitVec.ofNat 8 v]
  | fuel + 1, v =>
    if v < 128 then [BitVec.ofNat 8 v]
    else BitVec.ofNat 8 (0x80 ||| (v &&& 0x7F)) :: encWithin fuel (v >>> 7)

/-- `ENC(v)`, the minimal Encoded form of a natural number (R91). Every pass takes 7 bits, so the bit length bounds
the depth. -/
def refEnc (v : Nat) : List Byte := encWithin (bitLength v) v

/-- `DEC(s)` over unbounded naturals (41_decode.md R111). -/
def refDec (s : List Byte) : RefResult :=
  match terminator s with
  | none => .malformed
  | some t => .ok (valueOf (s.take (t + 1))) (t + 1)

/-- The provided sequence of a DECODE request: bytes 0 to n - 1 of DEC_IN (30_encoding.md R74, 41_decode.md R110). -/
def provided (buf : DecIn) (n : Len) : List Byte := (List.range n.toNat).map fun i => byteAt buf i

/-- The request that presents a sequence of at most 15 bytes at index 0 of DEC_IN (20_memory.md R41, R46, HZ5). The bytes
after it, which R41 lets hold any value, are zeros: DESIGN CHOICE (log entry 16). -/
def requestOf (s : List Byte) : DecReq :=
  { len := BitVec.ofNat 4 s.length, buf := BitVec.ofNat 120 (bytesToNat s) }

/-- The window a host presents of a longer sequence: its first 15 bytes (20_memory.md R55), with zeros after
them when it is shorter (log entry 16). -/
def windowOf (s : List Byte) : DecReq := requestOf (s.take Config.decBuf)

/-- The first class of a DECODE request (30_encoding.md R75): the empty sequence. -/
def isEmptyInput (s : List Byte) : Bool := s.isEmpty

/-- The second class: no byte of a non-empty sequence is final. -/
def isUnterminatedInput (s : List Byte) : Bool := !s.isEmpty && s.all contBit

/-- The consumed part of a terminated sequence (R64). -/
def consumedPart (s : List Byte) : List Byte :=
  match terminator s with
  | none => []
  | some t => s.take (t + 1)

/-- The third class: terminated, with a value of 2^64 or more. -/
def isOverflowingInput (s : List Byte) : Bool :=
  isTerminated s && decide (2 ^ Config.valueBits ≤ valueOf (consumedPart s))

/-- The fourth class: terminated, the value fits, and the consumed part is not minimal. -/
def isNonMinimalInput (s : List Byte) : Bool :=
  isTerminated s && decide (valueOf (consumedPart s) < 2 ^ Config.valueBits) && !isMinimal (consumedPart s)

/-- The fifth class: terminated, the value fits, and the consumed part is minimal. -/
def isCanonicalInput (s : List Byte) : Bool :=
  isTerminated s && decide (valueOf (consumedPart s) < 2 ^ Config.valueBits) && isMinimal (consumedPart s)

end Sys2Proof.Machine

namespace Sys2Proof

/-- The bytes of the encoding in an ENCODE response: the first `len` of ENC_OUT (20_memory.md R42, HZ4). -/
def EncRsp.encoding (r : EncRsp) : List Byte := (List.range r.len.toNat).map fun k => Machine.byteAt r.bytes k

end Sys2Proof
end

