-- ==== Sys2Proof/Machine/Adapter.lean ====
section
/-! DEFINITION. Software around the block, as far as the spec says what it must do: the adapter that takes a program's
integer to the encoder's port (60_exceptions.md R151, HZ8), and the two helpers of 42_helpers.md, which are reference
functions and no hardware. No step of the block calls any of them. -/

namespace Sys2Proof.Machine

/-- A cycle in which the host presents an ENCODE request. -/
def presentEncode (v : Value) : Pins := { Pins.quiet with encReqValid := true, encReqValue := v }

/-- A cycle in which the host presents a DECODE request. -/
def presentDecode (len : Len) (buf : DecIn) : Pins :=
  { Pins.quiet with decReqValid := true, decReqLen := len, decReqBuf := buf }

/-- The adapter of R151: an integer of the domain 0 to 2^64 - 1 is presented to the port; any other is refused with
InvalidInput before anything is presented. DESIGN CHOICE (log entry 15): it is presented for one cycle, the next one,
before all inputs already planned, with every other port quiet, and is not held until it is accepted. -/
def presentInteger (v : Int) (s : State) : Outcome :=
  if 0 ≤ v ∧ v < 2 ^ Config.valueBits then
    .next { s with inputs := presentEncode (BitVec.ofInt 64 v) :: s.inputs }
  else .refused (.invalidInput v)

/-- `BYTELEN(v)` (42_helpers.md R141): 8-bit bytes that hold `v`; for 0 the open parameter. -/
def byteLen (v : Nat) : Nat :=
  if v = 0 then Config.byteLenZero.val else (bitLength v + 7) / 8

/-- One byte as 8 binary characters, bit 7 first (R143). -/
def binaryOf (b : Byte) : List Char :=
  [7, 6, 5, 4, 3, 2, 1, 0].map fun j => if b.getLsbD j then '1' else '0'

/-- `BINFMT(s)` (R143): the bytes in sequence order, separated by one space. -/
def binFmt (s : List Byte) : List Char := [' '].intercalate (s.map binaryOf)

end Sys2Proof.Machine
end

