-- ==== Sys2Proof/Machine/Encoder.lean ====
section
/-! DEFINITION. `varint_encoder`: the response of ENCODE, the passes of its loop, and the ENC.REQ step
(40_encode.md). -/

namespace Sys2Proof.Machine

/-- `ENCODE(v)`, the response function (40_encode.md R96): status OK, the length of ENC(v), its bytes from index 0 and
zeros after them (R95). -/
def encodeRsp (v : Value) : EncRsp :=
  { status := .ok
    len := BitVec.ofNat 4 (refEnc v.toNat).length
    bytes := BitVec.ofNat 80 (bytesToNat (refEnc v.toNat)) }

/-- The loop of R92 before its first pass: ENC_OUT all zero, the remaining value `v`, the index 0. -/
def startEncode (v : Value) : EncWork := .looping v v 0 0

/-- One pass of the loop of R92 on the working registers. -/
def encPass (v rem : Value) (k : Nat) (out : EncOut) : Except Fault EncWork :=
  let g : Group := rem.extractLsb' 0 7
  let rest : Value := rem >>> 7
  if rest ≠ 0 then
    match memWrite out k (contByte g) with
    | .ok out' => .ok (.looping v rest (k + 1) out')
    | .error f => .error f
  else
    match memWrite out k (finalByte g) with
    | .ok out' => .ok (.done { status := .ok, len := BitVec.ofNat 4 (k + 1), bytes := out' })
    | .error f => .error f

/-- At a clock edge a running loop makes one pass (log entry 4). Only the working registers change. -/
def runEncLoop (s : State) : Outcome :=
  match s.enc.work with
  | .looping v rem k out =>
    match encPass v rem k out with
    | .ok w => .next { s with enc := { s.enc with work := w } }
    | .error f => .fault f
  | .idle => .next s
  | .done _ => .next s

/-- ENCODE, the ENC.REQ step (10_state.md R23): enabled when the slot is EMPTY, and then the slot becomes
`FULL(ENCODE(v))`. While the slot is FULL the request is not accepted and nothing happens (70_reset_and_hazards.md
R187, R189). -/
def execEncode (v : Value) (s : State) : Outcome :=
  match s.enc.slot with
  | .empty =>
    .next { s with
      enc := s.enc.accept (Config.encLatency s.enc.draws v) (encodeRsp v) (startEncode v)
      encLog := .req v :: s.encLog }
  | .full _ => .next s

end Sys2Proof.Machine
end

