-- ==== Sys2Proof/Machine/Decoder.lean ====
section
/-! DEFINITION. `varint_decoder`: the response of DECODE, the start and the end test of its loop, and the DEC.REQ step
(41_decode.md). The loop's body on one byte is the meaning of the byte's form (Machine/WireForm.lean). -/

namespace Sys2Proof.Machine

/-- `DECODE(buf, n)`, the response function (41_decode.md R121). -/
def decodeRsp (buf : DecIn) (n : Len) : DecRsp :=
  match refDec (provided buf n) with
  | .malformed => raiseError .malformedEncoding
  | .ok x c => finishDecode x c

/-- The loop of R112 before its first pass: the sampled request, the accumulator 0, the index 0. -/
def startDecode (buf : DecIn) (n : Len) : DecWork := .looping buf n 0 0

/-- The end test of R112: the index has reached n and no final byte was found, so MalformedEncoding is raised. -/
def endUnterminated (s : State) : State :=
  { s with dec := { s.dec with work := .done (raiseError .malformedEncoding) } }

/-- What the body of R112's loop adds to the accumulator: the byte's group at weight 7i, by OR. -/
def addGroup (acc : Nat) (d : Group) (i : Nat) : Nat := acc ||| (d.toNat <<< (7 * i))

/-- The narrow form of the loop (41_decode.md R126): a 64-bit accumulator and a mark that is set when a non-zero data
bit would land at bit 64 or above. -/
def narrowScan (i : Nat) (acc : Value) (mark : Bool) : List Byte → DecRsp
  | [] => raiseError .malformedEncoding
  | b :: s =>
    let g := (dataBits b).toNat <<< (7 * i)
    let acc' := acc ||| BitVec.ofNat 64 g
    let mark' := mark || decide (2 ^ 64 ≤ g)
    if contBit b then narrowScan (i + 1) acc' mark' s
    else if mark' then raiseError .valueOverflow
    else { status := .ok, consumed := BitVec.ofNat 4 (i + 1), value := acc' }

/-- DECODE, the DEC.REQ step (10_state.md R23): enabled when the slot is EMPTY, and then the slot becomes
`FULL(DECODE(buf, n))`. While the slot is FULL the request is not accepted and nothing happens
(70_reset_and_hazards.md R187, R189). -/
def execDecode (len : Len) (buf : DecIn) (s : State) : Outcome :=
  match s.dec.slot with
  | .empty =>
    .next { s with
      dec := s.dec.accept (Config.decLatency s.dec.draws len buf) (decodeRsp buf len) (startDecode buf len)
      decLog := .req { len := len, buf := buf } :: s.decLog }
  | .full _ => .next s

end Sys2Proof.Machine
end

