-- ==== Sys2Proof/Machine/WireForm.lean ====
section
/-! DEFINITION. The two byte forms of 30_encoding.md R60 as what they make the DECODE loop do: one pass of the body of
41_decode.md R112 on the byte. Outside a loop a byte is data and has no effect (30_encoding.md R73, 20_memory.md
R53; log entry 6). -/

namespace Sys2Proof.Machine

/-- VARINT.CONT: its group is placed at weight 7i and the scan goes on to the next position (R112, R113). -/
def execVarintCont (d : Group) (s : State) : Outcome :=
  match s.dec.work with
  | .looping buf n acc i =>
    .next { s with dec := { s.dec with work := .looping buf n (addGroup acc d i) (i + 1) } }
  | .idle => .next s
  | .done _ => .next s

/-- VARINT.FINAL: its group is placed at weight 7i, the scan stops and includes it, and the response is built
(R112, R113, R119). -/
def execVarintFinal (d : Group) (s : State) : Outcome :=
  match s.dec.work with
  | .looping _ _ acc i =>
    .next { s with dec := { s.dec with work := .done (finishDecode (addGroup acc d i) (i + 1)) } }
  | .idle => .next s
  | .done _ => .next s

end Sys2Proof.Machine
end

