-- ==== Sys2Proof/Machine/Dispatch.lean ====
section
/-! DEFINITION. One arm for each row of opcode_table.json. -/

namespace Sys2Proof.Machine

def exec (i : Instr) (s : State) : Host.Outcome State Fault Refusal :=
  match i with
  | .encode value => Sys2Proof.Machine.execEncode value s
  | .decode len buf => Sys2Proof.Machine.execDecode len buf s
  | .varintCont d => Sys2Proof.Machine.execVarintCont d s
  | .varintFinal d => Sys2Proof.Machine.execVarintFinal d s

end Sys2Proof.Machine
end

