-- ==== Sys2Proof/Machine/Edge.lean ====
section
/-! DEFINITION. What happens at one rising edge of `clk` (70_reset_and_hazards.md R181, R186 to R189), and the output
ports in the cycle before it (10_state.md R33 to R35). -/

namespace Sys2Proof.Machine

/-! ### Output ports -/

/-- `enc_req_ready`: 1 exactly when the slot is EMPTY and `rst` is 0 (R33, R187). -/
def encReqReady (s : State) : Bool := !s.enc.slot.isFull && !s.pins.rst

/-- `dec_req_ready`. -/
def decReqReady (s : State) : Bool := !s.dec.slot.isFull && !s.pins.rst

/-- `enc_rsp_valid`: only with a FULL slot, once the free latency is over, and 0 while `rst` is 1 (R181, R188). -/
def encRspValid (s : State) : Bool := s.enc.slot.isFull && s.enc.wait == 0 && !s.pins.rst

/-- `dec_rsp_valid`. -/
def decRspValid (s : State) : Bool := s.dec.slot.isFull && s.dec.wait == 0 && !s.pins.rst

/-- The encoder's three payload outputs. While `enc_rsp_valid` is 0 they are unspecified and have no value (R35). -/
def encRspPayload (s : State) : Option EncRsp :=
  match s.enc.slot with
  | .full r => if encRspValid s then some r else none
  | .empty => none

/-- The decoder's three payload outputs (R35). -/
def decRspPayload (s : State) : Option DecRsp :=
  match s.dec.slot with
  | .full r => if decRspValid s then some r else none
  | .empty => none

/-! ### Fetching -/

/-- The request on `enc_req_*`, when the host presents one (R186). -/
def Pins.encFetch (p : Pins) : Option Packet :=
  if p.encReqValid then some (.encReq p.encReqValue) else none

/-- The request on `dec_req_*`, when the host presents one: `{len, buf}` (30_encoding.md R70). -/
def Pins.decFetch (p : Pins) : Option Packet :=
  if p.decReqValid then some (.decReq (p.decReqLen ++ p.decReqBuf)) else none

/-- Run the instruction that a payload is, if there is one. -/
def runFetched (p : Option Packet) (s : State) : Outcome :=
  match p with
  | some w => exec (decodePacket w) s
  | none => .next s

/-- At a clock edge a running DECODE loop makes one pass of 41_decode.md R112: the end test, then the byte at the index
is read and its form is run (log entry 4). -/
def runDecLoop (s : State) : Outcome :=
  match s.dec.work with
  | .looping buf n _ i =>
    if i = n.toNat then .next (endUnterminated s)
    else
      match memRead buf i with
      | .ok b => exec (decodePacket (.wireByte b)) s
      | .error f => .fault f
  | .idle => .next s
  | .done _ => .next s

/-! ### The response channels -/

/-- The encoder's response channel at an edge, `before` being the state in the cycle before the edge: a transfer when
valid and ready are both 1 (R186); otherwise a FULL slot comes nearer to `enc_rsp_valid`, or holds its response
(R188). -/
def encRspEdge (before : State) (s : State) : State :=
  if encRspValid before && before.pins.encRspReady then deliverEnc s
  else if before.enc.slot.isFull then { s with enc := s.enc.countDown }
  else s

/-- The decoder's response channel at an edge. -/
def decRspEdge (before : State) (s : State) : State :=
  if decRspValid before && before.pins.decRspReady then deliverDec s
  else if before.dec.slot.isFull then { s with dec := s.dec.countDown }
  else s

/-! ### The edge -/

/-- A rising edge of `clk` (R181, R186): with `rst` at 1 the RESET step and nothing else; otherwise the loops make a
pass, a presented request is run by its unit, and a presented response is taken. All of it is decided by the state
and the inputs before the edge; the two units never touch each other (10_state.md R20). -/
def clockEdge (s : State) : Outcome :=
  if s.pins.rst then .next (resetUnits s.nextCycle)
  else
    andThen (runEncLoop s.nextCycle) fun s₁ =>
    andThen (runDecLoop s₁) fun s₂ =>
    andThen (runFetched s.pins.encFetch s₂) fun s₃ =>
    andThen (runFetched s.pins.decFetch s₃) fun s₄ =>
    .next (decRspEdge s (encRspEdge s s₄))

/-- The state in which the next edge runs the instruction of a payload: a request is presented in the coming cycle; a
byte of the wire format is byte 0, with zeros after it (log entry 16), of a DECODE loop of one byte that is about to make
its first pass. -/
def placePacket (p : Packet) (s : State) : State :=
  match p with
  | .encReq w => { s with inputs := presentEncode w :: s.inputs }
  | .decReq w =>
    { s with inputs := presentDecode (w.extractLsb' 120 4) (w.extractLsb' 0 120) :: s.inputs }
  | .wireByte b =>
    { s with
      dec := { s.dec with work := startDecode (BitVec.setWidth 120 b) 1 }
      inputs := Pins.quiet :: s.inputs }

end Sys2Proof.Machine
end

