-- ==== Sys2Proof/Machine/Step.lean ====
section
/-! DEFINITION. The step of the machine: one rising edge of `clk`. -/

namespace Sys2Proof.Machine

/-- One rising edge of `clk`. -/
def step (s : State) : Host.Outcome State Fault Refusal := clockEdge s

/-- `s` with an instruction placed where the next step takes it from: a request presented in the coming cycle, or a
byte about to be read by the DECODE loop (log entry 7). A word of no row leaves the state as it is. -/
def State.withFetchWord (s : State) (nbits w : Nat) : State :=
  match tablePacket nbits w with
  | some p => placePacket p s
  | none => s

end Sys2Proof.Machine
end

