-- ==== Sys2Proof/Safety.lean ====
section
/-! DEFINITION. The terms claims are made in: the step relation of 10_state.md R23 as a replay of what the host saw,
the consistency of the working registers with the slot (R32), the invariant of a run, quiescence and
the end of a host script (70_reset_and_hazards.md R185). -/

namespace Sys2Proof.Machine

/-- The slot that a host's record of one unit ends in, when the record (latest first) is a run of the relation of R23
from reset, for a unit whose response to `q` is `f q`; none when it is no such run. -/
def replay {ρ α : Type} [DecidableEq α] (f : ρ → α) : List (Event ρ α) → Option (Slot α)
  | [] => some .empty
  | e :: log =>
    match replay f log, e with
    | some .empty, .req q => some (.full (f q))
    | some (.full r), .rsp r' => if r = r' then some .empty else none
    | some _, .reset => some .empty
    | _, _ => none

/-- The requests a unit has accepted since the last reset, latest first. -/
def acceptedSince {ρ α : Type} : List (Event ρ α) → List ρ
  | [] => []
  | .reset :: _ => []
  | .req q :: log => q :: acceptedSince log
  | .rsp _ :: log => acceptedSince log

/-- The responses the host has received since the last reset, latest first. -/
def receivedSince {ρ α : Type} : List (Event ρ α) → List α
  | [] => []
  | .reset :: _ => []
  | .req _ :: log => receivedSince log
  | .rsp r :: log => r :: receivedSince log

/-- The response a slot still owes the host. -/
def Slot.toList {α : Type} : Slot α → List α
  | .empty => []
  | .full r => [r]

/-- DECODE's response as a function of its request (R121). -/
def decodeReq (q : DecReq) : DecRsp := decodeRsp q.buf q.len

/-- The working registers of a running ENCODE loop hold what R92 has after `k` passes over `v`: the index is inside
ENC_OUT, `rem` is what is left of `v` and was not 0 before this pass, and ENC_OUT holds the first `k` bytes of ENC(v).
A finished loop has built the response of the slot, while the slot still holds it. -/
def encConsistent (u : EncUnit) : Prop :=
  match u.work with
  | .idle => u.slot = .empty
  | .looping v rem k out =>
    k < Config.maxBytes ∧ rem = v >>> (7 * k) ∧ (0 < k → rem ≠ 0) ∧
    out = BitVec.ofNat 80 (bytesToNat ((refEnc v.toNat).take k)) ∧
    (u.slot = .empty ∨ u.slot = .full (encodeRsp v))
  | .done r => u.slot = .empty ∨ u.slot = .full r

/-- The same for DECODE and R112 after `i` passes: the index has not passed n, the bytes before it are continuation
bytes, and the accumulator is the value of their groups. -/
def decConsistent (u : DecUnit) : Prop :=
  match u.work with
  | .idle => u.slot = .empty
  | .looping buf n acc i =>
    i ≤ n.toNat ∧ (∀ b ∈ (provided buf n).take i, contBit b = true) ∧
    acc = valueOf ((provided buf n).take i) ∧
    (u.slot = .empty ∨ u.slot = .full (decodeRsp buf n))
  | .done r => u.slot = .empty ∨ u.slot = .full r

/-- The invariant of a run: what the host saw of each unit is a run of R23 that ends in the unit's slot, and the
working registers are consistent with it. -/
def Inv (s : State) : Prop :=
  replay encodeRsp s.encLog = some s.enc.slot ∧
  replay decodeReq s.decLog = some s.dec.slot ∧
  encConsistent s.enc ∧ decConsistent s.dec

/-- Every response a slot holds is one R76 allows. -/
def SlotsLegal (s : State) : Prop :=
  (∀ r, s.enc.slot = .full r → r.legal = true) ∧ (∀ r, s.dec.slot = .full r → r.legal = true)

/-- The block is quiescent when both slots are EMPTY (R185). -/
def State.quiescent (s : State) : Bool := !s.enc.slot.isFull && !s.dec.slot.isFull

/-- Whether the host presents a request, on either channel, in a cycle. -/
def Pins.presentsRequest (p : Pins) : Bool := p.encReqValid || p.decReqValid

/-- Whether every request of a record has had its response delivered or was dropped by a reset: since the last reset, as
many responses were received as requests were accepted (R185, R182). -/
def allAnswered {ρ α : Type} (log : List (Event ρ α)) : Bool := (acceptedSince log).length == (receivedSince log).length

/-- The end of a host script (R185): every request it had accepted has had its response delivered, or was dropped by a
reset, and the script presents no further request in the cycles that remain of it. -/
def State.scriptEnded (s : State) : Bool :=
  allAnswered s.encLog && allAnswered s.decLog && s.inputs.all fun p => !p.presentsRequest

/-- Two states that a host cannot tell apart: they agree on all but the working registers (R32), so on the model's own
latency fields too (log entry 2). -/
def SameButWork (s t : State) : Prop :=
  s.enc.slot = t.enc.slot ∧ s.enc.wait = t.enc.wait ∧ s.enc.draws = t.enc.draws ∧
  s.dec.slot = t.dec.slot ∧ s.dec.wait = t.dec.wait ∧ s.dec.draws = t.dec.draws ∧
  s.inputs = t.inputs ∧ s.encLog = t.encLog ∧ s.decLog = t.decLog

/-- The inputs of one cycle that the encoder sees. -/
def Pins.encSide (p : Pins) : Bool × Bool × Value × Bool := (p.rst, p.encReqValid, p.encReqValue, p.encRspReady)

/-- The inputs of one cycle that the decoder sees. -/
def Pins.decSide (p : Pins) : Bool × Bool × DecIn × Len × Bool :=
  (p.rst, p.decReqValid, p.decReqBuf, p.decReqLen, p.decRspReady)

/-- The passes of the ENCODE loop alone, `n` of them. -/
def encLoopRun : Nat → State → Outcome
  | 0, s => .next s
  | n + 1, s => andThen (runEncLoop s) (encLoopRun n)

/-- The passes of the DECODE loop alone, `n` of them. -/
def decLoopRun : Nat → State → Outcome
  | 0, s => .next s
  | n + 1, s => andThen (runDecLoop s) (decLoopRun n)

end Sys2Proof.Machine
end

