-- ==== Sys2Proof/Certificates/Slice0/Obligations.lean ====
section
/-! DEFINITION. The statements for the provers, from the numbered rules of spec/. -/

open Sys2Proof Sys2Proof.Machine

/-! ### Reset -/

/-- 10_state.md R34, 70_reset_and_hazards.md R184: after reset both slots are EMPTY, no response is valid, no payload
output has a value, both units are ready for a request, and the block is quiescent (R185). That the host of
`State.reset` drives nothing is the model's choice (log entry 1). -/
def Obligations.ResetLeavesSlotsEmptyAndUnitsReady : Prop :=
  State.reset.enc.slot = .empty ∧ State.reset.dec.slot = .empty ∧
  encRspValid State.reset = false ∧ decRspValid State.reset = false ∧
  encRspPayload State.reset = none ∧ decRspPayload State.reset = none ∧
  encReqReady State.reset = true ∧ decReqReady State.reset = true ∧
  State.reset.quiescent = true

/-- 70_reset_and_hazards.md R181, R182: in a cycle with `rst` at 1 no output is ready or valid, and the edge that ends it
empties both slots, accepts no request and delivers no response; after it no response is valid, no payload output has a
value, and both units are ready as soon as `rst` is 0 (10_state.md R34). A response not yet delivered is dropped: the
host is owed nothing, and the edge after delivers nothing. The host's record and that the edge uses up the cycle's
inputs are the model's choice (log entries 1, 5 and 11). -/
def Obligations.ResetEmptiesBothSlotsAndDropsResponses : Prop :=
  ∀ s : State, s.pins.rst = true →
    encReqReady s = false ∧ decReqReady s = false ∧ encRspValid s = false ∧ decRspValid s = false ∧
    ∃ t, step s = .next t ∧ t.enc.slot = .empty ∧ t.dec.slot = .empty ∧
      t.encLog = .reset :: s.encLog ∧ t.decLog = .reset :: s.decLog ∧ t.inputs = s.inputs.tail ∧
      encRspValid t = false ∧ decRspValid t = false ∧ encRspPayload t = none ∧ decRspPayload t = none ∧
      (t.pins.rst = false → encReqReady t = true ∧ decReqReady t = true) ∧
      ∀ u, step t = .next u → receivedSince u.encLog = [] ∧ receivedSince u.decLog = []

/-! ### ENCODE -/

/-- 10_state.md R23, 40_encode.md R90, 20_memory.md R43: with an EMPTY slot ENCODE is accepted; the slot becomes
`FULL(ENCODE(v))`, and of the rest of the state only the model's own fields of the encoder (the drawn latency, log
entry 2; the working registers, log entry 4) and the host's record of it (log entry 5) change. -/
def Obligations.EncodeAcceptedFillsTheSlot : Prop :=
  ∀ (v : Value) (s : State), s.enc.slot = .empty →
    exec (.encode v) s = .next { s with
      enc := { slot := .full (encodeRsp v), wait := Config.encLatency s.enc.draws v,
               draws := s.enc.draws + 1, work := .looping v v 0 0 }
      encLog := .req v :: s.encLog }

/-- 70_reset_and_hazards.md R187, R189: while the slot is FULL an ENCODE request is not accepted and nothing changes. -/
def Obligations.EncodeWaitsWhileTheSlotIsFull : Prop :=
  ∀ (v : Value) (r : EncRsp) (s : State), s.enc.slot = .full r → exec (.encode v) s = .next s

/-- 40_encode.md R96: the response of ENCODE by ENC, in closed form, and by the loop of R92. That the loop's registers
stand in State and start at the acceptance is the model's choice (log entry 4). -/
def Obligations.EncodeResponseClosedForm : Prop :=
  ∀ (v : Value) (s : State), s.enc.slot = .empty →
    ∃ t r, exec (.encode v) s = .next t ∧ t.enc.slot = .full r ∧
      r.status.code = 0 ∧
      r.len.toNat = (refEnc v.toNat).length ∧
      (∀ k, k < (refEnc v.toNat).length → some (byteAt r.bytes k) = (refEnc v.toNat)[k]?) ∧
      (∀ k, (refEnc v.toNat).length ≤ k → k ≤ 9 → byteAt r.bytes k = 0) ∧
      (∀ k, k ≤ 9 →
        let L := max 1 ((bitLength v.toNat + 6) / 7)
        (byteAt r.bytes k).toNat =
          if k + 1 < L then ((v.toNat >>> (7 * k)) &&& 0x7F) ||| 0x80
          else if k + 1 = L then (v.toNat >>> (7 * k)) &&& 0x7F
          else 0) ∧
      ∃ u, encLoopRun 10 t = .next u ∧ u.enc.work = .done r

/-- 40_encode.md R91: ENC is the recursion of the spec, over all natural numbers. -/
def Obligations.EncFollowsItsRecursion : Prop :=
  ∀ v : Nat,
    (v < 128 → refEnc v = [BitVec.ofNat 8 v]) ∧
    (128 ≤ v → refEnc v = BitVec.ofNat 8 (0x80 ||| (v &&& 0x7F)) :: refEnc (v >>> 7))

/-- 40_encode.md R93: the length of an encoding; for a 64-bit Value it is from 1 to 10. -/
def Obligations.EncodingLengthIsCeilOfBitLength : Prop :=
  (∀ v : Nat, 0 < v → (refEnc v).length = (bitLength v + 6) / 7) ∧
  (refEnc 0).length = 1 ∧
  (∀ v : Nat, (refEnc v).length = max 1 ((bitLength v + 6) / 7)) ∧
  (∀ v : Value, 1 ≤ (refEnc v.toNat).length ∧ (refEnc v.toNat).length ≤ 10 ∧
    (encodeRsp v).len.toNat = (refEnc v.toNat).length)

/-- 40_encode.md R94: every byte but the last has bit 7 set, the last has it clear; so an encoding is an Encoded form,
is terminated, and its terminator is its last byte. -/
def Obligations.ContinuationBitDiscipline : Prop :=
  ∀ v : Nat,
    (∀ k b, (refEnc v)[k]? = some b → (contBit b = true ↔ k + 1 < (refEnc v).length)) ∧
    isEncodedForm (refEnc v) = true ∧ isTerminated (refEnc v) = true ∧
    terminator (refEnc v) = some ((refEnc v).length - 1)

/-- 40_encode.md R95: the encoding is the shortest Encoded form of its value, its last byte is not zero from 128 on, 0 is
the single byte 00, and the bytes of ENC_OUT after the encoding are 00. -/
def Obligations.EncodingIsShortestAndPaddedWithZeros : Prop :=
  (∀ v : Nat, isMinimal (refEnc v) = true ∧ valueOf (refEnc v) = v ∧ (128 ≤ v → (refEnc v).getLast? ≠ some 0) ∧
    ∀ s, isEncodedForm s = true → valueOf s = v → (refEnc v).length ≤ s.length) ∧
  refEnc 0 = [0x00] ∧
  (∀ (v : Value) (k : Nat), (encodeRsp v).len.toNat ≤ k → k ≤ 9 → byteAt (encodeRsp v).bytes k = 0)

/-- 30_encoding.md R65: an Encoded form is minimal exactly when its length is that of the length law; there is exactly
one minimal Encoded form of every natural number, ENC of it; the one of 0 is the single byte 00; and the encoder
produces minimal forms only. -/
def Obligations.MinimalEncodingExistsAndIsUnique : Prop :=
  (∀ s, isEncodedForm s = true →
    (isMinimal s = true ↔ (s.length = 1 ∨ s.getLast? ≠ some 0)) ∧
    (isMinimal s = true ↔ s.length = max 1 ((bitLength (valueOf s) + 6) / 7))) ∧
  (∀ (v : Nat) (s : List Byte), (isMinimal s = true ∧ valueOf s = v) ↔ s = refEnc v) ∧
  refEnc 0 = [0x00] ∧
  (∀ v : Value, isMinimal (encodeRsp v).encoding = true)

/-- 40_encode.md R97: the value of an encoding is the number encoded, DEC gives it back with its length, and no two
numbers share an encoding. -/
def Obligations.EncodingCanBeInverted : Prop :=
  (∀ v : Nat, valueOf (refEnc v) = v ∧ refDec (refEnc v) = .ok v (refEnc v).length) ∧
  (∀ v w : Nat, refEnc v = refEnc w → v = w)

/-- 30_encoding.md R67: which Values take how many bytes. -/
def Obligations.EncodingLengthTable : Prop :=
  ∀ (v : Value) (L : Nat), 1 ≤ L → L ≤ 10 →
    ((encodeRsp v).len.toNat = L ↔
      (L = 1 ∨ 2 ^ (7 * (L - 1)) ≤ v.toNat) ∧ v.toNat < 2 ^ (min 64 (7 * L)))

/-- 30_encoding.md R82: the tenth byte of an encoding is 01, and a consumed part with a bit at a weight of 2^64 or above
spells a value that does not fit and is reported as ValueOverflow. -/
def Obligations.TenthByteHoldsBit63Only : Prop :=
  (∀ v : Value, (encodeRsp v).len.toNat = 10 → byteAt (encodeRsp v).bytes 9 = 0x01) ∧
  (∀ (buf : DecIn) (n : Len) (t i : Nat), terminator (provided buf n) = some t → i ≤ t →
    ((i = 9 ∧ (byteAt buf 9).extractLsb' 1 6 ≠ 0) ∨ (10 ≤ i ∧ dataBits (byteAt buf i) ≠ 0)) →
    2 ^ 64 ≤ valueOf ((provided buf n).take (t + 1)) ∧ (decodeRsp buf n).status = .valueOverflow)

/-- 20_memory.md R45, R44: bit j of the Value is bit j mod 7 of the byte at position j / 7. -/
def Obligations.ValueBitLivesInByteOfItsGroup : Prop :=
  ∀ (v : Value) (j : Nat), j < 64 →
    v.getLsbD j = (byteAt (encodeRsp v).bytes (j / 7)).getLsbD (j % 7)

/-! ### Groups and values -/

/-- 30_encoding.md R62: the data bits of the byte at position i of an Encoded form are bits 7i+6 to 7i of its value. -/
def Obligations.GroupIsSliceOfTheValue : Prop :=
  ∀ (s : List Byte) (i : Nat) (b : Byte), isEncodedForm s = true → s[i]? = some b →
    (dataBits b).toNat = (valueOf s >>> (7 * i)) &&& 0x7F

/-- 30_encoding.md R63: the sum of the shifted groups equals their bitwise OR, and the continuation bits contribute
nothing. -/
def Obligations.ValueIsSumAndOrOfShiftedGroups : Prop :=
  ∀ s : List Byte,
    valueOf s = (s.zipIdx.map fun p => (dataBits p.1).toNat <<< (7 * p.2)).sum ∧
    valueOf s = s.zipIdx.foldl (fun acc p => acc ||| ((dataBits p.1).toNat <<< (7 * p.2))) 0 ∧
    valueOf (s.map fun b => b &&& 0x7F) = valueOf s

/-! ### DECODE -/

/-- 10_state.md R23, 41_decode.md R110, 20_memory.md R43: with an EMPTY slot DECODE is accepted; the slot becomes
`FULL(DECODE(buf, n))`, and of the rest of the state only the model's own fields of the decoder (log entries 2 and 4)
and the host's record of it (log entry 5) change. -/
def Obligations.DecodeAcceptedFillsTheSlot : Prop :=
  ∀ (n : Len) (buf : DecIn) (s : State), s.dec.slot = .empty →
    exec (.decode n buf) s = .next { s with
      dec := { slot := .full (decodeRsp buf n), wait := Config.decLatency s.dec.draws n buf,
               draws := s.dec.draws + 1, work := .looping buf n 0 0 }
      decLog := .req { len := n, buf := buf } :: s.decLog }

/-- 70_reset_and_hazards.md R187, R189: while the slot is FULL a DECODE request is not accepted and nothing changes. -/
def Obligations.DecodeWaitsWhileTheSlotIsFull : Prop :=
  ∀ (n : Len) (buf : DecIn) (r : DecRsp) (s : State), s.dec.slot = .full r →
    exec (.decode n buf) s = .next s

/-- 41_decode.md R111: DEC on every byte sequence. -/
def Obligations.DecStopsAtFirstFinalByte : Prop :=
  ∀ s : List Byte,
    ((∀ b ∈ s, contBit b = true) → refDec s = .malformed) ∧
    (∀ (t : Nat) (b : Byte), s[t]? = some b → contBit b = false → (∀ c ∈ s.take t, contBit c = true) →
      refDec s =
        .ok ((s.take (t + 1)).zipIdx.map fun p => (p.1.toNat &&& 0x7F) <<< (7 * p.2)).sum (t + 1))

/-- 41_decode.md R121: the response of DECODE by DEC, and that it depends on the first n bytes only, and on the first
t + 1 only when position t holds the terminator. -/
def Obligations.DecodeResponseFunction : Prop :=
  (∀ (buf : DecIn) (n : Len) (s : State), s.dec.slot = .empty →
    ∃ t r, exec (.decode n buf) s = .next t ∧ t.dec.slot = .full r ∧
      (refDec (provided buf n) = .malformed → r.status.code = 2 ∧ r.consumed = 0 ∧ r.value = 0) ∧
      (∀ x c, refDec (provided buf n) = .ok x c → 2 ^ 64 ≤ x →
        r.status.code = 3 ∧ r.consumed = 0 ∧ r.value = 0) ∧
      (∀ x c, refDec (provided buf n) = .ok x c → x < 2 ^ 64 →
        r.status.code = 0 ∧ r.consumed.toNat = c ∧ r.value.toNat = x)) ∧
  (∀ (buf buf' : DecIn) (n : Len), (∀ i, i < n.toNat → byteAt buf i = byteAt buf' i) →
    decodeRsp buf n = decodeRsp buf' n) ∧
  (∀ (buf buf' : DecIn) (n : Len) (t : Nat), terminator (provided buf n) = some t →
    (∀ i, i ≤ t → byteAt buf i = byteAt buf' i) → decodeRsp buf n = decodeRsp buf' n)

/-- 41_decode.md R113: the scan stops at the first final byte and includes it; no byte after it has any effect, nor has
the count of bytes that follow. -/
def Obligations.BytesAfterTheTerminatorAreNotExamined : Prop :=
  ∀ (buf buf' : DecIn) (n n' : Len) (t : Nat), t < n.toNat → t < n'.toNat →
    (∀ i, i < t → contBit (byteAt buf i) = true) → contBit (byteAt buf t) = false →
    (∀ i, i ≤ t → byteAt buf' i = byteAt buf i) →
    decodeRsp buf n = finishDecode (valueOf ((List.range (t + 1)).map (byteAt buf))) (t + 1) ∧
    decodeRsp buf' n' = decodeRsp buf n

/-- 41_decode.md R114, 95_test_vectors.md VI6: on success `consumed` is the terminator position plus one, from 1 to n. -/
def Obligations.ConsumedIsTerminatorPlusOne : Prop :=
  ∀ (buf : DecIn) (n : Len), (decodeRsp buf n).status = .ok →
    terminator (provided buf n) = some ((decodeRsp buf n).consumed.toNat - 1) ∧
    1 ≤ (decodeRsp buf n).consumed.toNat ∧ (decodeRsp buf n).consumed.toNat ≤ n.toNat ∧
    contBit (byteAt buf ((decodeRsp buf n).consumed.toNat - 1)) = false ∧
    (∀ i, i + 1 < (decodeRsp buf n).consumed.toNat → contBit (byteAt buf i) = true)

/-- 41_decode.md R116: the empty sequence is MalformedEncoding, whatever the buffer holds. -/
def Obligations.EmptyInputIsMalformed : Prop :=
  ∀ (buf : DecIn) (s : State), s.dec.slot = .empty →
    ∃ t, exec (.decode 0 buf) s = .next t ∧
      t.dec.slot = .full { status := .malformedEncoding, consumed := 0, value := 0 }

/-- 41_decode.md R117: a sequence with no final byte within its n bytes is MalformedEncoding, even when a byte at
position n or later would be one. -/
def Obligations.UnterminatedInputIsMalformed : Prop :=
  ∀ (n : Len) (buf : DecIn) (s : State), s.dec.slot = .empty → 0 < n.toNat →
    (∀ i, i < n.toNat → contBit (byteAt buf i) = true) →
    ∃ t, exec (.decode n buf) s = .next t ∧
      t.dec.slot = .full { status := .malformedEncoding, consumed := 0, value := 0 }

/-- 41_decode.md R118: a non-minimal consumed part whose value fits is decoded like any other, and the value's minimal
encoding is that part with its redundant zero groups removed; so `80 00` decodes to 0 with consumed 2, the value that
`00` has too. -/
def Obligations.NonMinimalInputIsAccepted : Prop :=
  (∀ (buf : DecIn) (n : Len) (t : Nat),
    terminator (provided buf n) = some t →
    isMinimal ((provided buf n).take (t + 1)) = false →
    valueOf ((provided buf n).take (t + 1)) < 2 ^ 64 →
    (decodeRsp buf n).status = .ok ∧
    (decodeRsp buf n).value.toNat = valueOf ((provided buf n).take (t + 1)) ∧
    (decodeRsp buf n).consumed.toNat = t + 1 ∧
    (refEnc (decodeRsp buf n).value.toNat).length < t + 1 ∧
    (∀ i b, (refEnc (decodeRsp buf n).value.toNat)[i]? = some b → dataBits b = dataBits (byteAt buf i)) ∧
    (∀ i, (refEnc (decodeRsp buf n).value.toNat).length ≤ i → i ≤ t → dataBits (byteAt buf i) = 0)) ∧
  decodeRsp 0x0080 2 = { status := .ok, consumed := 2, value := 0 } ∧
  decodeRsp 0x00 1 = { status := .ok, consumed := 1, value := 0 }

/-- 41_decode.md R119: ValueOverflow exactly when the value of the consumed part is 2^64 or more; stated on the value
and on the bytes. -/
def Obligations.OverflowExactlyWhenTheValueDoesNotFit : Prop :=
  ∀ (buf : DecIn) (n : Len),
    ((decodeRsp buf n).status = .valueOverflow ↔
      ∃ t, terminator (provided buf n) = some t ∧ 2 ^ 64 ≤ valueOf ((provided buf n).take (t + 1))) ∧
    ((decodeRsp buf n).status = .valueOverflow ↔
      ∃ t, terminator (provided buf n) = some t ∧
        ((9 ≤ t ∧ (byteAt buf 9).extractLsb' 1 6 ≠ 0) ∨
         ∃ i, 10 ≤ i ∧ i ≤ t ∧ dataBits (byteAt buf i) ≠ 0)) ∧
    ((decodeRsp buf n).status = .ok →
      ∃ t, terminator (provided buf n) = some t ∧
        (decodeRsp buf n).value.toNat = valueOf ((provided buf n).take (t + 1)))

/-- 41_decode.md R120: an error response carries zeros, and the causes are judged in the order empty, unterminated,
overflow. -/
def Obligations.ErrorResponsesCarryZerosInPriorityOrder : Prop :=
  (∀ (buf : DecIn) (n : Len), (decodeRsp buf n).status ≠ .ok →
    (decodeRsp buf n).value = 0 ∧ (decodeRsp buf n).consumed = 0) ∧
  (∀ (buf : DecIn) (n : Len),
    (decodeRsp buf n).status =
      if n = 0 then .malformedEncoding
      else if ∀ i < n.toNat, contBit (byteAt buf i) = true then .malformedEncoding
      else if 2 ^ 64 ≤ valueOf (consumedPart (provided buf n)) then .valueOverflow
      else .ok) ∧
  (decodeRsp (BitVec.allOnes 120) 15).status = .malformedEncoding

/-- 30_encoding.md R75: every request is in exactly one of the five classes, the class decides the outcome, and bytes after
the consumed part play no part in the classification. -/
def Obligations.FiveInputClassesDecideTheOutcome : Prop :=
  (∀ (buf : DecIn) (n : Len),
    let s := provided buf n
    let r := decodeRsp buf n
    [isEmptyInput s, isUnterminatedInput s, isOverflowingInput s, isNonMinimalInput s, isCanonicalInput s].count true
      = 1 ∧
    (isEmptyInput s = true ↔ n = 0) ∧
    (isEmptyInput s = true → r = raiseError .malformedEncoding) ∧
    (isUnterminatedInput s = true → r = raiseError .malformedEncoding) ∧
    (isOverflowingInput s = true → r = raiseError .valueOverflow) ∧
    (isNonMinimalInput s = true ∨ isCanonicalInput s = true →
      r.status = .ok ∧ r.value.toNat = valueOf (consumedPart s) ∧
      terminator s = some (r.consumed.toNat - 1) ∧ 0 < r.consumed.toNat)) ∧
  (∀ s r : List Byte, isTerminated s = true →
    isEmptyInput (s ++ r) = isEmptyInput s ∧ isUnterminatedInput (s ++ r) = isUnterminatedInput s ∧
    isOverflowingInput (s ++ r) = isOverflowingInput s ∧ isNonMinimalInput (s ++ r) = isNonMinimalInput s ∧
    isCanonicalInput (s ++ r) = isCanonicalInput s)

/-- 41_decode.md R122: decode is the left inverse of encode, with any trailing bytes; and the right inverse on minimal
input only. -/
def Obligations.DecodeInvertsEncode : Prop :=
  (∀ (v : Nat) (r : List Byte), refDec (refEnc v ++ r) = .ok v (refEnc v).length) ∧
  (∀ (v : Value) (buf : DecIn) (n : Len) (s : State), s.dec.slot = .empty →
    (provided buf n).take (encodeRsp v).len.toNat = (encodeRsp v).encoding →
    ∃ t, exec (.decode n buf) s = .next t ∧
      t.dec.slot = .full { status := .ok, consumed := (encodeRsp v).len, value := v }) ∧
  (∀ (s : List Byte) (x c : Nat), refDec s = .ok x c →
    (isMinimal (s.take c) = true → refEnc x = s.take c) ∧
    (isMinimal (s.take c) = false → (refEnc x).length < c))

/-- 95_test_vectors.md VI4, from 41_decode.md R116 and R117: an encoding cut short is MalformedEncoding. -/
def Obligations.TruncatedEncodingIsMalformed : Prop :=
  ∀ (v : Value) (buf : DecIn) (n : Len), n.toNat < (encodeRsp v).len.toNat →
    provided buf n = (encodeRsp v).encoding.take n.toNat →
    decodeRsp buf n = { status := .malformedEncoding, consumed := 0, value := 0 }

/-- 41_decode.md R126: a 64-bit accumulator with an overflow mark gives the same responses. -/
def Obligations.NarrowAccumulatorGivesTheSameResponses : Prop :=
  ∀ (buf : DecIn) (n : Len), narrowScan 0 0 false (provided buf n) = decodeRsp buf n

/-! ### The loops of the two units -/

/-- 41_decode.md R112: from the start of its loop on a sampled request, the decoder's working registers reach exactly
the response of DECODE, by passes that run the byte forms, and nothing but them changes. That the working registers
stand in State is the model's choice (log entry 4). -/
def Obligations.DecodeLoopBuildsTheResponse : Prop :=
  ∀ (buf : DecIn) (n : Len) (s : State), s.dec.work = .looping buf n 0 0 →
    decLoopRun 16 s = .next { s with dec := { s.dec with work := .done (decodeRsp buf n) } }

/-- 40_encode.md R92: the same for the encoder's loop; ENC_OUT is never overrun. That the working registers stand in
State is the model's choice (log entry 4). -/
def Obligations.EncodeLoopBuildsTheResponse : Prop :=
  ∀ (v : Value) (s : State), s.enc.work = .looping v v 0 0 →
    encLoopRun 10 s = .next { s with enc := { s.enc with work := .done (encodeRsp v) } }

/-- 41_decode.md R112, R113, 30_encoding.md R60: VARINT.CONT in a running DECODE loop places its group at weight 7i and
goes on to the next position, and changes nothing else. The working registers are the model's choice (log entry 4). -/
def Obligations.ContinuationByteExtendsTheScan : Prop :=
  ∀ (d : Group) (buf : DecIn) (n : Len) (acc i : Nat) (s : State), s.dec.work = .looping buf n acc i →
    exec (.varintCont d) s = .next { s with dec := { s.dec with
      work := .looping buf n (acc ||| (d.toNat <<< (7 * i))) (i + 1) } }

/-- 41_decode.md R112, R113, R119: VARINT.FINAL in a running DECODE loop places its group, stops the scan and builds the
response, and changes nothing else. The working registers are the model's choice (log entry 4). -/
def Obligations.FinalByteEndsTheScan : Prop :=
  ∀ (d : Group) (buf : DecIn) (n : Len) (acc i : Nat) (s : State), s.dec.work = .looping buf n acc i →
    exec (.varintFinal d) s = .next { s with dec := { s.dec with
      work := .done (if 2 ^ 64 ≤ acc ||| (d.toNat <<< (7 * i))
        then { status := .valueOverflow, consumed := 0, value := 0 }
        else { status := .ok, consumed := BitVec.ofNat 4 (i + 1),
               value := BitVec.ofNat 64 (acc ||| (d.toNat <<< (7 * i))) }) } }

/-- The model's choice (log entry 6), after 30_encoding.md R73 (a byte form is no operation) and 20_memory.md R53 (bytes
are data only): with no DECODE loop running a byte form changes nothing. -/
def Obligations.ByteFormOutsideALoopChangesNothing : Prop :=
  ∀ (d : Group) (s : State), (∀ buf n acc i, s.dec.work ≠ .looping buf n acc i) →
    exec (.varintCont d) s = .next s ∧ exec (.varintFinal d) s = .next s

/-! ### Encodings -/

/-- 30_encoding.md R60: every byte is one of the two forms, told apart by bit 7. -/
def Obligations.EveryByteIsOneOfTwoForms : Prop :=
  ∀ b : Byte,
    (0x80 ≤ b.toNat ↔ b[7] = true) ∧ (b.toNat ≤ 0x7F ↔ b[7] = false) ∧
    (b[7] = true → decodeByte b = .varintCont (BitVec.ofNat 7 (b.toNat % 128))) ∧
    (b[7] = false → decodeByte b = .varintFinal (BitVec.ofNat 7 b.toNat))

/-- 30_encoding.md R60, R68, R70: decoding the bytes of an instruction gives it back, every operand at every value. That a
payload comes in whole bytes is the model's choice (log entry 8). -/
def Obligations.DecodeOfEncodeIsTheInstruction : Prop :=
  ∀ i : Instr, decode i.channel (encode i) = .ok i

/-- 30_encoding.md R68, R70, R73: bytes that decode have one meaning: they are the encoding of what they decode to, on
its channel. It rests on the model's choice that a payload comes in whole bytes and that DEC_REQ bytes with a bit above
bit 123 are rejected (log entry 8). -/
def Obligations.DecodedBytesAreTheEncoding : Prop :=
  ∀ (c : Channel) (bs : List Byte) (i : Instr), decode c bs = .ok i → i.channel = c ∧ encode i = bs

/-- 30_encoding.md R68, R70, R76: which bytes are rejected, and by what name; all others decode. That a payload comes in
whole bytes is the model's choice (log entry 8). -/
def Obligations.DecoderRejectsByName : Prop :=
  ∀ (c : Channel) (bs : List Byte),
    (bs.length ≠ c.byteCount → decode c bs = .error (.wrongLength c.byteCount bs.length)) ∧
    (bs.length = c.byteCount →
      (decode c bs = .error .paddingSet ↔ c = .decReq ∧ 2 ^ 124 ≤ bytesToNat bs) ∧
      (decode c bs ≠ .error .paddingSet → ∃ i, decode c bs = .ok i))

/-- 30_encoding.md R60, R68, R70, R80: words written out from the spec's encodings decode to what they stand for. That a DEC_REQ
word of 124 bits stands in 128 is the model's choice (log entry 8). -/
def Obligations.WrittenOutWordsDecode : Prop :=
  decodeTableWord 64 0x0000000000000096 = some (.encode 150) ∧
  decodeTableWord 128 0x3000000000000000000000000FF0196 = some (.decode 3 0xFF0196) ∧
  decodeTableWord 8 0b10010110 = some (.varintCont 0b0010110) ∧
  decodeTableWord 8 0b00000001 = some (.varintFinal 1)

/-- 30_encoding.md R73: exactly one row of the table selects a payload, the row of the instruction it decodes to. -/
def Obligations.ExactlyOneTableRowSelectsAPayload : Prop :=
  ∀ p : Packet, (opcodeTable.filter (·.selects p)).map (·.mnemonic) = [(decodePacket p).mnemonic]

/-- 30_encoding.md R69, R71, R72: the response payloads are their fields at the bits the spec gives, and a payload gives
its fields back. -/
def Obligations.ResponsePayloadsHoldTheirFields : Prop :=
  (∀ r : EncRsp, r.pack.extractLsb' 84 2 = r.status.code ∧ r.pack.extractLsb' 80 4 = r.len ∧
    r.pack.extractLsb' 0 80 = r.bytes ∧ EncRsp.unpack r.pack = r) ∧
  (∀ w : BitVec 86, (EncRsp.unpack w).pack = w) ∧
  (∀ r : DecRsp, r.pack.extractLsb' 68 2 = r.status.code ∧ r.pack.extractLsb' 64 4 = r.consumed ∧
    r.pack.extractLsb' 0 64 = r.value ∧ DecRsp.unpack r.pack = r) ∧
  (∀ w : BitVec 70, (DecRsp.unpack w).pack = w)

/-! ### The clock edge -/

/-- 10_state.md R23, 70_reset_and_hazards.md R186, 41_decode.md R112: with `rst` at 0 a step runs the instructions that the
presented requests decode to, after the loops' passes, and then the response channels, all by the state before the
edge; and the pass of a running DECODE loop runs the instruction that the byte at its index decodes to. The host's cycles,
the passes, the whole bytes and the order inside the edge are the model's (log entries 1, 4, 8 and 13). -/
def Obligations.StepRunsTheDecodedInstructions : Prop :=
  (∀ (s : State) (i j : Instr), s.pins.rst = false →
    decode .encReq (natToBytes 8 s.pins.encReqValue.toNat) = .ok i →
    decode .decReq (natToBytes 16 (s.pins.decReqLen ++ s.pins.decReqBuf).toNat) = .ok j →
    step s =
      andThen (runEncLoop s.nextCycle) fun a =>
      andThen (runDecLoop a) fun b =>
      andThen (if s.pins.encReqValid then exec i b else .next b) fun c =>
      andThen (if s.pins.decReqValid then exec j c else .next c) fun d =>
      .next (decRspEdge s (encRspEdge s d))) ∧
  (∀ (s : State) (buf : DecIn) (n : Len) (acc k : Nat) (i : Instr), s.dec.work = .looping buf n acc k →
    k < n.toNat → decode .wireByte [byteAt buf k] = .ok i → runDecLoop s = exec i s)

/-- By the model's own placement (log entry 7: the spec has no program and no fetch), a word of each row of
opcode_table.json is run by the step that follows its placement in `State.reset`: that step is the meaning of the
instruction decoded, at the state the placement leaves, its cycle used up. An operation is placed as a request that a
host may present (70_reset_and_hazards.md R186, R187); a byte form is placed as a one-byte DECODE loop beside an EMPTY
slot, a state that no run reaches, so of a byte form this says only what a pass of the loop does. The host's cycles,
the loop, the word's channel and padding, and the zeros after a placed byte are the model's choice too (log entries 1,
4, 8 and 16). -/
def Obligations.PlacedInstructionRunsInTheNextStep : Prop :=
  ∀ (nbits w : Nat) (i : Instr), decodeTableWord nbits w = some i →
    step (State.reset.withFetchWord nbits w) = exec i (State.reset.withFetchWord nbits w).nextCycle

/-- 70_reset_and_hazards.md R186: a transfer happens at an edge with the channel's valid and ready both 1 and `rst` 0, and
at no other time; what is transferred is the payload at that edge; a transfer on a request channel is the unit's REQ
step, one on a response channel its RSP step (10_state.md R23). The record that shows a transfer is the model's choice
(log entry 5). -/
def Obligations.TransferExactlyOnValidAndReady : Prop :=
  ∀ s t : State, step s = .next t →
    t.encLog =
      (if s.pins.rst then [.reset]
       else if s.pins.encReqValid && encReqReady s then [.req s.pins.encReqValue]
       else if s.pins.encRspReady then (encRspPayload s).toList.map .rsp else []) ++ s.encLog ∧
    t.enc.slot =
      (if s.pins.rst then .empty
       else if s.pins.encReqValid && encReqReady s then .full (encodeRsp s.pins.encReqValue)
       else if s.pins.encRspReady && encRspValid s then .empty else s.enc.slot) ∧
    t.decLog =
      (if s.pins.rst then [.reset]
       else if s.pins.decReqValid && decReqReady s then
         [.req { len := s.pins.decReqLen, buf := s.pins.decReqBuf }]
       else if s.pins.decRspReady then (decRspPayload s).toList.map .rsp else []) ++ s.decLog ∧
    t.dec.slot =
      (if s.pins.rst then .empty
       else if s.pins.decReqValid && decReqReady s then .full (decodeRsp s.pins.decReqBuf s.pins.decReqLen)
       else if s.pins.decRspReady && decRspValid s then .empty else s.dec.slot)

/-- 70_reset_and_hazards.md R188: a presented response stays presented and unchanged until it is taken or reset comes;
a response is not presented before the cycle after acceptance, and only while the slot is FULL. That the host's cycles
stand in State, and when within R188 a response becomes valid, are the model's choice (log entries 1 and 2). -/
def Obligations.PresentedResponseIsHeld : Prop :=
  (∀ (s t : State), step s = .next t → s.pins.rst = false → t.pins.rst = false →
    (encRspValid s = true → s.pins.encRspReady = false →
      encRspValid t = true ∧ encRspPayload t = encRspPayload s) ∧
    (decRspValid s = true → s.pins.decRspReady = false →
      decRspValid t = true ∧ decRspPayload t = decRspPayload s)) ∧
  (∀ s : State, (encRspValid s = true → ∃ r, s.enc.slot = .full r) ∧ (encReqReady s = true → encRspValid s = false) ∧
    (decRspValid s = true → ∃ r, s.dec.slot = .full r) ∧ (decReqReady s = true → decRspValid s = false))

/-- 70_reset_and_hazards.md R189: while a slot is FULL nothing is accepted and nothing is lost, however long the host
waits, and the other unit is free to work. -/
def Obligations.FullSlotHoldsUntilTaken : Prop :=
  ∀ s t : State, step s = .next t → s.pins.rst = false →
    (∀ r, s.enc.slot = .full r → encReqReady s = false ∧
      ((encRspValid s && s.pins.encRspReady) = false → t.enc.slot = .full r) ∧
      ((encRspValid s && s.pins.encRspReady) = true → t.enc.slot = .empty)) ∧
    (∀ r, s.dec.slot = .full r → decReqReady s = false ∧
      ((decRspValid s && s.pins.decRspReady) = false → t.dec.slot = .full r) ∧
      ((decRspValid s && s.pins.decRspReady) = true → t.dec.slot = .empty))

/-- 70_reset_and_hazards.md R191: without a reset a response is presented after finitely many edges (as many as the
latency that was drawn, log entry 2, still asks for), and delivered at an edge at which the host is ready; a request
presented to an EMPTY slot is accepted at the next edge. Those edges may go past the host's list of input cycles, and
that `rst` is 0 in the quiet cycles there is the model's choice (log entry 1). The premise `Inv` rules out states that
no run reaches; it rests on the model's working registers and record (log entries 4 and 5). -/
def Obligations.RequestsAndResponsesAreServed : Prop :=
  (∀ (s : State) (r : EncRsp), Inv s → s.enc.slot = .full r → (∀ p ∈ s.inputs, p.rst = false) →
    ∃ t, Sys2Proof.core.run s.enc.wait s = .next t ∧ encRspPayload t = some r) ∧
  (∀ (s : State) (r : DecRsp), Inv s → s.dec.slot = .full r → (∀ p ∈ s.inputs, p.rst = false) →
    ∃ t, Sys2Proof.core.run s.dec.wait s = .next t ∧ decRspPayload t = some r) ∧
  (∀ s : State, Inv s → s.pins.rst = false → ∃ t, step s = .next t ∧
    (s.enc.slot = .empty → s.pins.encReqValid = true → t.enc.slot = .full (encodeRsp s.pins.encReqValue)) ∧
    (s.dec.slot = .empty → s.pins.decReqValid = true →
      t.dec.slot = .full (decodeRsp s.pins.decReqBuf s.pins.decReqLen)) ∧
    (encRspValid s = true → s.pins.encRspReady = true → t.enc.slot = .empty) ∧
    (decRspValid s = true → s.pins.decRspReady = true → t.dec.slot = .empty))

/-! ### Invariants and whole-machine rules -/

/-- The invariant of a run holds at reset (10_state.md R34, 70_reset_and_hazards.md R183). Of what it reads, only that the
slots are EMPTY is the spec's; that the working registers are idle and that the host's record is empty are the model's
choice (log entries 4, 5 and 11). -/
def Obligations.RunInvariantHoldsAtReset : Prop := Inv State.reset

/-- 10_state.md R22, R23, R32; 20_memory.md R47: every step keeps the invariant of a run: what the host sees of each unit
is a run of the step relation of R23, every response being the one the response function gives for its own request,
and the loops of R92 and R112 are on their way to the same response. The working registers and the record are the
model's choice (log entries 4 and 5). -/
def Obligations.EveryStepKeepsTheRunInvariant : Prop :=
  ∀ s t : State, Inv s → step s = .next t → Inv t

/-- 20_memory.md R49: no access is ever outside a buffer, so a step in a state of a run never stops. What a state of
a run is rests on the model's working registers and record (log entries 4 and 5), and the stop on log entry 10. -/
def Obligations.NoStepOfARunStops : Prop :=
  ∀ s : State, Inv s → ∃ t, step s = .next t

/-- 30_encoding.md R76: the reserved response values are never produced. -/
def Obligations.ReservedResponseValuesAreNeverProduced : Prop :=
  ∀ s t : State, SlotsLegal s → step s = .next t → SlotsLegal t

/-- 20_memory.md R50 (b), 10_state.md R22: since the last reset, the responses received and the one still owed are, in
order, the responses to the requests accepted. The record, and the working
registers that the premise `Inv` reads, are the model's choice (log entries 4 and 5). -/
def Obligations.ResponsesAnswerRequestsInOrder : Prop :=
  ∀ s : State, Inv s →
    s.enc.slot.toList ++ receivedSince s.encLog = (acceptedSince s.encLog).map encodeRsp ∧
    s.dec.slot.toList ++ receivedSince s.decLog = (acceptedSince s.decLog).map decodeReq

/-- 10_state.md R20: neither unit depends on the other: two states that agree on one unit, its record and its ports
agree on them after a step, whatever the other unit holds and is driven with. That they agree on the
latency, the working registers and the record rests on the model's choice: a latency is a free value of the unit's own
request and its own count of draws, a pass is made at every edge, and State holds the record (log entries 2, 4 and
5). -/
def Obligations.UnitsAreIndependent : Prop :=
  ∀ s s' t t' : State, step s = .next t → step s' = .next t' →
    (s.enc = s'.enc → s.encLog = s'.encLog → s.pins.encSide = s'.pins.encSide →
      t.enc = t'.enc ∧ t.encLog = t'.encLog) ∧
    (s.dec = s'.dec → s.decLog = s'.decLog → s.pins.decSide = s'.pins.decSide →
      t.dec = t'.dec ∧ t.decLog = t'.decLog)

/-- 10_state.md R32: the working registers are never visible: two states that differ in them only show the same outputs,
and still differ in them only after a step. That the working registers stand in State is the model's choice (log entry
4). The two states after the step also agree on the drawn latency and the count of draws; that is not R32's but the
model's choice, by which a latency is a function of the count of draws and the request (log entry 2). -/
def Obligations.WorkingRegistersAreInvisible : Prop :=
  ∀ s s' t t' : State, SameButWork s s' → step s = .next t → step s' = .next t' →
    SameButWork t t' ∧
    encReqReady s = encReqReady s' ∧ decReqReady s = decReqReady s' ∧
    encRspPayload s = encRspPayload s' ∧ decRspPayload s = decRspPayload s'

/-- 10_state.md R21, 60_exceptions.md R160, R161: an error leaves nothing behind: after an error response is taken, the
next request is accepted and its response is the one it has from any other state. -/
def Obligations.ErrorsLeaveNothingBehind : Prop :=
  ∀ (s t : State) (r : DecRsp) (n : Len) (buf : DecIn), s.dec.slot = .full r → r.status ≠ .ok →
    step s = .next t → s.pins.rst = false → decRspValid s = true → s.pins.decRspReady = true →
    ∃ u, exec (.decode n buf) t = .next u ∧ u.dec.slot = .full (decodeRsp buf n)

/-! ### Around the block -/

/-- 60_exceptions.md R151: the adapter presents exactly the integers of the domain and refuses every other with
InvalidInput, presenting nothing. That an integer is presented in the very next cycle is the model's choice (log entries
12 and 15). -/
def Obligations.AdapterRejectsOutOfDomainIntegers : Prop :=
  ∀ (v : Int) (s : State),
    (v < 0 ∨ 2 ^ 64 ≤ v → presentInteger v s = .refused (.invalidInput v)) ∧
    (0 ≤ v → v < 2 ^ 64 → ∃ t, presentInteger v s = .next t ∧
      t.pins.encReqValid = true ∧ (t.pins.encReqValue.toNat : Int) = v ∧
      t.enc = s.enc ∧ t.dec = s.dec ∧ t.encLog = s.encLog ∧ t.decLog = s.decLog)

/-- 20_memory.md R55: on the window of a longer sequence DECODE agrees with DEC whenever DEC consumes 15 bytes or fewer;
otherwise the window is MalformedEncoding. That the window holds zeros after the provided bytes is the model's choice (log
entry 16). -/
def Obligations.WindowAgreesWithUnboundedDecode : Prop :=
  ∀ s : List Byte,
    (∀ x c, refDec s = .ok x c → c ≤ 15 → decodeRsp (windowOf s).buf (windowOf s).len = finishDecode x c) ∧
    (∀ x c, refDec s = .ok x c → 15 < c →
      decodeRsp (windowOf s).buf (windowOf s).len = raiseError .malformedEncoding) ∧
    (refDec s = .malformed → decodeRsp (windowOf s).buf (windowOf s).len = raiseError .malformedEncoding)

/-- 42_helpers.md R141 to R144: the byte-length helper counts the 8-bit bytes a number needs, and for 0 answers the open
parameter, 0 or 1 (log entry 3); it is not the length of an encoding; and the binary printer gives 8 characters a byte, the bits of
the byte from bit 7 down, with one space between bytes. -/
def Obligations.HelperFunctions : Prop :=
  (∀ v : Nat, 0 < v → v < 2 ^ (8 * byteLen v) ∧ 2 ^ (8 * (byteLen v - 1)) ≤ v) ∧
  (byteLen 0 = 0 ∨ byteLen 0 = 1) ∧
  byteLen 255 = 1 ∧ (refEnc 255).length = 2 ∧ byteLen (2 ^ 64 - 1) = 8 ∧ (refEnc (2 ^ 64 - 1)).length = 10 ∧
  binFmt [] = [] ∧
  (∀ (s : List Byte), s ≠ [] → (binFmt s).length + 1 = 9 * s.length) ∧
  (∀ (s : List Byte) (k j : Nat) (b : Byte), s[k]? = some b → j < 8 →
    (binFmt s)[9 * k + j]? = some (if b.getLsbD (7 - j) then '1' else '0')) ∧
  (∀ (s : List Byte) (k : Nat), k + 1 < s.length → (binFmt s)[9 * k + 8]? = some ' ')
end

