-- ==== Sys2Proof/Laws/Bytes.lean ====
section
/-! SUPPORT. Bytes: the two byte forms as numbers, bytes and numbers, and slices of an append. -/

namespace Sys2Proof

/-! ### The two byte forms -/

theorem dataBits_toNat (b : Byte) : (dataBits b).toNat = b.toNat % 128 := by simp [dataBits]

theorem msb_eq_contBit (b : Byte) : b.msb = contBit b := by simp [contBit, BitVec.msb, BitVec.getMsbD]

theorem contBit_iff_le (b : Byte) : contBit b = true ↔ 128 ≤ b.toNat := by
  rw [← msb_eq_contBit, BitVec.msb_eq_decide]; simp

theorem contBit_eq_false_iff_lt (b : Byte) : contBit b = false ↔ b.toNat < 128 := by
  rw [← Bool.not_eq_true, contBit_iff_le, Nat.not_le]

theorem contByte_toNat (g : Group) : (contByte g).toNat = 128 + g.toNat := by
  have h := Nat.two_pow_add_eq_or_of_lt (i := 7) (b := g.toNat) g.isLt 1
  simp only [contByte, BitVec.toNat_append, Nat.shiftLeft_eq]
  simpa using h.symm

theorem finalByte_toNat (g : Group) : (finalByte g).toNat = g.toNat := by
  rw [finalByte, BitVec.toNat_append]; simp

/-! ### Bytes and numbers -/

theorem natToBytes_length (n w : Nat) : (natToBytes n w).length = n := by
  induction n generalizing w with
  | zero => rfl
  | succ n ih => simp [natToBytes, ih]

theorem bytesToNat_lt (s : List Byte) : bytesToNat s < 256 ^ s.length := by
  induction s with
  | nil => decide
  | cons b s ih =>
    have := b.isLt
    rw [bytesToNat, List.length_cons, Nat.pow_succ]; omega

theorem bytesToNat_natToBytes (n w : Nat) (h : w < 256 ^ n) : bytesToNat (natToBytes n w) = w := by
  induction n generalizing w with
  | zero => simp at h; subst h; rfl
  | succ n ih =>
    rw [natToBytes, bytesToNat, ih _ (by rw [Nat.pow_succ] at h; omega), BitVec.toNat_ofNat]; omega

theorem natToBytes_bytesToNat (s : List Byte) : natToBytes s.length (bytesToNat s) = s := by
  induction s with
  | nil => rfl
  | cons b s ih =>
    have hb := b.isLt
    rw [List.length_cons, bytesToNat, natToBytes, show (b.toNat + 256 * bytesToNat s) / 256 = bytesToNat s by omega, ih]
    congr 1
    apply BitVec.eq_of_toNat_eq
    rw [BitVec.toNat_ofNat]; omega

theorem bytesToNat_append (s r : List Byte) : bytesToNat (s ++ r) = bytesToNat s + 256 ^ s.length * bytesToNat r := by
  induction s with
  | nil => simp [bytesToNat]
  | cons b s ih => simp only [List.cons_append, bytesToNat, ih, List.length_cons, Nat.pow_succ]; ring

/-- Byte `k` of the number of a byte list is the list's byte `k`, and zero after its end. -/
theorem bytesToNat_div_mod (s : List Byte) (k : Nat) : bytesToNat s / 256 ^ k % 256 = ((s[k]?).getD 0).toNat := by
  induction s generalizing k with
  | nil => simp [bytesToNat]
  | cons b s ih =>
    have hb := b.isLt
    cases k with
    | zero => simp [bytesToNat]; omega
    | succ k =>
      rw [List.getElem?_cons_succ, ← ih k, Nat.pow_succ', ← Nat.div_div_eq_div_mul, bytesToNat,
        show (b.toNat + 256 * bytesToNat s) / 256 = bytesToNat s by omega]

/-! ### Slices of an append -/

theorem extract_append_low {n m : Nat} (x : BitVec n) (y : BitVec m) : (x ++ y).extractLsb' 0 m = y := by
  apply BitVec.eq_of_getLsbD_eq; intro j hj; simp [BitVec.getLsbD_append, hj]

theorem extract_append_high {n m : Nat} (x : BitVec n) (y : BitVec m) : (x ++ y).extractLsb' m n = x := by
  apply BitVec.eq_of_getLsbD_eq; intro j hj; simp [BitVec.getLsbD_append, hj]

theorem extract_append_within_low {n m : Nat} (x : BitVec n) (y : BitVec m) (k l : Nat) (h : k + l ≤ m) :
    (x ++ y).extractLsb' k l = y.extractLsb' k l := by
  apply BitVec.eq_of_getLsbD_eq; intro j hj; simp [BitVec.getLsbD_append, hj, show k + j < m by omega]

end Sys2Proof
end

