-- ==== Sys2Proof/Laws/State.lean ====
section
/-! SUPPORT. One lemma for each field of each update of the state, true by `rfl`, so that no later proof unfolds a record
update. -/

namespace Sys2Proof.Machine

section unit
variable {α ω : Type}

/-! ### accept -/

@[simp] theorem UnitState.accept_slot (n : Nat) (r : α) (w : ω) (u : UnitState α ω) :
    (u.accept n r w).slot = .full r := rfl
@[simp] theorem UnitState.accept_wait (n : Nat) (r : α) (w : ω) (u : UnitState α ω) : (u.accept n r w).wait = n := rfl
@[simp] theorem UnitState.accept_draws (n : Nat) (r : α) (w : ω) (u : UnitState α ω) :
    (u.accept n r w).draws = u.draws + 1 := rfl
@[simp] theorem UnitState.accept_work (n : Nat) (r : α) (w : ω) (u : UnitState α ω) : (u.accept n r w).work = w := rfl

/-! ### deliver -/

@[simp] theorem UnitState.deliver_slot (u : UnitState α ω) : u.deliver.slot = .empty := rfl
@[simp] theorem UnitState.deliver_wait (u : UnitState α ω) : u.deliver.wait = u.wait := rfl
@[simp] theorem UnitState.deliver_draws (u : UnitState α ω) : u.deliver.draws = u.draws := rfl
@[simp] theorem UnitState.deliver_work (u : UnitState α ω) : u.deliver.work = u.work := rfl

/-! ### countDown -/

@[simp] theorem UnitState.countDown_slot (u : UnitState α ω) : u.countDown.slot = u.slot := rfl
@[simp] theorem UnitState.countDown_wait (u : UnitState α ω) : u.countDown.wait = u.wait - 1 := rfl
@[simp] theorem UnitState.countDown_draws (u : UnitState α ω) : u.countDown.draws = u.draws := rfl
@[simp] theorem UnitState.countDown_work (u : UnitState α ω) : u.countDown.work = u.work := rfl

/-! ### clear -/

@[simp] theorem UnitState.clear_slot (w : ω) (u : UnitState α ω) : (u.clear w).slot = .empty := rfl
@[simp] theorem UnitState.clear_wait (w : ω) (u : UnitState α ω) : (u.clear w).wait = 0 := rfl
@[simp] theorem UnitState.clear_draws (w : ω) (u : UnitState α ω) : (u.clear w).draws = u.draws := rfl
@[simp] theorem UnitState.clear_work (w : ω) (u : UnitState α ω) : (u.clear w).work = w := rfl

/-! ### a slot -/

@[simp] theorem Slot.isFull_empty : (Slot.empty : Slot α).isFull = false := rfl
@[simp] theorem Slot.isFull_full (r : α) : (Slot.full r).isFull = true := rfl

end unit

/-! ### nextCycle -/

@[simp] theorem State.nextCycle_enc (s : State) : s.nextCycle.enc = s.enc := rfl
@[simp] theorem State.nextCycle_dec (s : State) : s.nextCycle.dec = s.dec := rfl
@[simp] theorem State.nextCycle_inputs (s : State) : s.nextCycle.inputs = s.inputs.tail := rfl
@[simp] theorem State.nextCycle_encLog (s : State) : s.nextCycle.encLog = s.encLog := rfl
@[simp] theorem State.nextCycle_decLog (s : State) : s.nextCycle.decLog = s.decLog := rfl

/-! ### resetUnits -/

@[simp] theorem resetUnits_enc (s : State) : (resetUnits s).enc = s.enc.clear .idle := rfl
@[simp] theorem resetUnits_dec (s : State) : (resetUnits s).dec = s.dec.clear .idle := rfl
@[simp] theorem resetUnits_inputs (s : State) : (resetUnits s).inputs = s.inputs := rfl
@[simp] theorem resetUnits_encLog (s : State) : (resetUnits s).encLog = .reset :: s.encLog := rfl
@[simp] theorem resetUnits_decLog (s : State) : (resetUnits s).decLog = .reset :: s.decLog := rfl

/-! ### endUnterminated -/

@[simp] theorem endUnterminated_enc (s : State) : (endUnterminated s).enc = s.enc := rfl
@[simp] theorem endUnterminated_dec_slot (s : State) : (endUnterminated s).dec.slot = s.dec.slot := rfl
@[simp] theorem endUnterminated_dec_wait (s : State) : (endUnterminated s).dec.wait = s.dec.wait := rfl
@[simp] theorem endUnterminated_dec_draws (s : State) : (endUnterminated s).dec.draws = s.dec.draws := rfl
@[simp] theorem endUnterminated_dec_work (s : State) :
    (endUnterminated s).dec.work = .done (raiseError .malformedEncoding) := rfl
@[simp] theorem endUnterminated_inputs (s : State) : (endUnterminated s).inputs = s.inputs := rfl
@[simp] theorem endUnterminated_encLog (s : State) : (endUnterminated s).encLog = s.encLog := rfl
@[simp] theorem endUnterminated_decLog (s : State) : (endUnterminated s).decLog = s.decLog := rfl

/-! ### deliverEnc and deliverDec -/

@[simp] theorem deliverEnc_dec (s : State) : (deliverEnc s).dec = s.dec := by unfold deliverEnc; split <;> rfl
@[simp] theorem deliverEnc_inputs (s : State) : (deliverEnc s).inputs = s.inputs := by unfold deliverEnc; split <;> rfl
@[simp] theorem deliverEnc_decLog (s : State) : (deliverEnc s).decLog = s.decLog := by unfold deliverEnc; split <;> rfl
@[simp] theorem deliverDec_enc (s : State) : (deliverDec s).enc = s.enc := by unfold deliverDec; split <;> rfl
@[simp] theorem deliverDec_inputs (s : State) : (deliverDec s).inputs = s.inputs := by unfold deliverDec; split <;> rfl
@[simp] theorem deliverDec_encLog (s : State) : (deliverDec s).encLog = s.encLog := by unfold deliverDec; split <;> rfl

/-! ### placePacket -/

@[simp] theorem placePacket_enc (p : Packet) (s : State) : (placePacket p s).enc = s.enc := by cases p <;> rfl
@[simp] theorem placePacket_dec_slot (p : Packet) (s : State) : (placePacket p s).dec.slot = s.dec.slot := by
  cases p <;> rfl
@[simp] theorem placePacket_dec_wait (p : Packet) (s : State) : (placePacket p s).dec.wait = s.dec.wait := by
  cases p <;> rfl
@[simp] theorem placePacket_dec_draws (p : Packet) (s : State) : (placePacket p s).dec.draws = s.dec.draws := by
  cases p <;> rfl
@[simp] theorem placePacket_encLog (p : Packet) (s : State) : (placePacket p s).encLog = s.encLog := by cases p <;> rfl
@[simp] theorem placePacket_decLog (p : Packet) (s : State) : (placePacket p s).decLog = s.decLog := by cases p <;> rfl

end Sys2Proof.Machine
end

