-- ==== Sys2Proof/Laws/Ops.lean ====
section
/-! SUPPORT. What each shared operation of Machine/Ops.lean can do. -/

namespace Sys2Proof.Machine

/-! ### Sequencing -/

@[simp] theorem andThen_next (s : State) (f : State → Outcome) : andThen (.next s) f = f s := rfl
@[simp] theorem andThen_fault (r : Fault) (f : State → Outcome) : andThen (.fault r) f = .fault r := rfl
@[simp] theorem andThen_refused (r : Refusal) (f : State → Outcome) : andThen (.refused r) f = .refused r := rfl

theorem andThen_eq_next_iff {o : Outcome} {f : State → Outcome} {t : State} :
    andThen o f = .next t ↔ ∃ s, o = .next s ∧ f s = .next t := by
  cases o <;> simp [andThen]

/-! ### The two buffers -/

/-- A read answers the byte at the index, inside the buffer, and stops otherwise. -/
theorem memRead_eq (buf : DecIn) (i : Nat) :
    (i < 15 ∧ memRead buf i = .ok (byteAt buf i)) ∨ (15 ≤ i ∧ memRead buf i = .error (.decInIndex i)) := by
  unfold memRead
  rcases Nat.lt_or_ge i 15 with h | h
  · exact .inl ⟨h, if_pos h⟩
  · exact .inr ⟨h, if_neg (Nat.not_lt.mpr h)⟩

/-- A write replaces the byte at the index, inside the buffer, and stops otherwise. -/
theorem memWrite_eq (out : EncOut) (k : Nat) (b : Byte) :
    (k < 10 ∧ memWrite out k b = .ok (setByte out k b)) ∨ (10 ≤ k ∧ memWrite out k b = .error (.encOutIndex k)) := by
  unfold memWrite
  rcases Nat.lt_or_ge k 10 with h | h
  · exact .inl ⟨h, if_pos h⟩
  · exact .inr ⟨h, if_neg (Nat.not_lt.mpr h)⟩

theorem byteAt_toNat {w : Nat} (x : BitVec w) (k : Nat) : (byteAt x k).toNat = x.toNat / 256 ^ k % 256 := by
  simp [byteAt, Nat.shiftRight_eq_div_pow, Nat.pow_mul]

theorem byteAt_getLsbD {w : Nat} (x : BitVec w) (k j : Nat) (h : j < 8) :
    (byteAt x k).getLsbD j = x.getLsbD (8 * k + j) := by
  simp [byteAt, h]

/-- A buffer given as a byte list holds the list's bytes, and zeros after them. -/
theorem byteAt_ofNat_bytesToNat {w : Nat} (s : List Byte) (k : Nat) (hk : 8 * k + 8 ≤ w) :
    byteAt (BitVec.ofNat w (bytesToNat s)) k = (s[k]?).getD 0 := by
  apply BitVec.eq_of_toNat_eq
  rw [byteAt_toNat, BitVec.toNat_ofNat, ← bytesToNat_div_mod]
  obtain ⟨m, rfl⟩ : ∃ m, w = 8 * k + (8 + m) := ⟨w - 8 * k - 8, by omega⟩
  rw [Nat.pow_add, Nat.pow_add, Nat.pow_mul, show (2 : Nat) ^ 8 = 256 by rfl, Nat.mod_mul_right_div_self,
    Nat.mod_mul_right_mod]

theorem setByte_getLsbD (out : EncOut) (k : Nat) (b : Byte) (i : Nat) (hi : i < 80) :
    (setByte out k b).getLsbD i =
      if 8 * k ≤ i ∧ i < 8 * k + 8 then b.getLsbD (i - 8 * k) else out.getLsbD i := by
  simp only [setByte, BitVec.getLsbD_or, BitVec.getLsbD_and, BitVec.getLsbD_not, BitVec.getLsbD_shiftLeft,
    BitVec.getLsbD_setWidth, hi, decide_true, Bool.true_and, show i - 8 * k < 80 by omega]
  by_cases h : 8 * k ≤ i
  · rw [decide_eq_false (Nat.not_lt.mpr h)]
    by_cases h' : i < 8 * k + 8
    · rw [if_pos ⟨h, h'⟩]
      have hj : i - 8 * k < 8 := by omega
      generalize i - 8 * k = j at hj
      have e : (0xFF : Byte).getLsbD j = true := by interval_cases j <;> rfl
      rw [e]; simp
    · rw [if_neg (fun c => h' c.2), BitVec.getLsbD_of_ge b _ (by omega), BitVec.getLsbD_of_ge (0xFF : Byte) _ (by omega)]
      simp
  · rw [decide_eq_true (Nat.not_le.mp h), if_neg (fun c => h c.1)]
    simp

/-- Read after write, at the byte written and at every other byte. -/
theorem byteAt_setByte (out : EncOut) (k j : Nat) (b : Byte) (hj : j < 10) :
    byteAt (setByte out k b) j = if j = k then b else byteAt out j := by
  apply BitVec.eq_of_getLsbD_eq
  intro i hi
  rw [byteAt_getLsbD _ _ _ hi, setByte_getLsbD _ _ _ _ (by omega)]
  by_cases h : j = k
  · subst h
    rw [if_pos ⟨by omega, by omega⟩, if_pos rfl, show 8 * j + i - 8 * j = i by omega]
  · rw [if_neg (by omega), if_neg h, byteAt_getLsbD _ _ _ hi]

/-! ### Delivering a response -/

theorem deliverEnc_full {s : State} {r : EncRsp} (h : s.enc.slot = .full r) :
    deliverEnc s = { s with enc := s.enc.deliver, encLog := .rsp r :: s.encLog } := by unfold deliverEnc; rw [h]

theorem deliverEnc_empty {s : State} (h : s.enc.slot = .empty) : deliverEnc s = s := by unfold deliverEnc; rw [h]

theorem deliverDec_full {s : State} {r : DecRsp} (h : s.dec.slot = .full r) :
    deliverDec s = { s with dec := s.dec.deliver, decLog := .rsp r :: s.decLog } := by unfold deliverDec; rw [h]

theorem deliverDec_empty {s : State} (h : s.dec.slot = .empty) : deliverDec s = s := by unfold deliverDec; rw [h]

/-! ### Ending a DECODE -/

theorem finishDecode_fits {x c : Nat} (h : x < 2 ^ 64) :
    finishDecode x c = { status := .ok, consumed := BitVec.ofNat 4 c, value := BitVec.ofNat 64 x } :=
  if_neg (Nat.not_le.mpr h)

theorem finishDecode_overflows {x c : Nat} (h : 2 ^ 64 ≤ x) : finishDecode x c = raiseError .valueOverflow := if_pos h

end Sys2Proof.Machine
end

