-- ==== Sys2Proof/Laws/Operands.lean ====
section
/-! SUPPORT. What the functions on byte sequences of Machine/Operands.lean do. -/

namespace Sys2Proof.Machine

/-! ### bit_length -/

theorem bitLength_le_iff (v n : Nat) : bitLength v ≤ n ↔ v < 2 ^ n := by
  unfold bitLength
  split
  · subst v; simp
  · next h => rw [Nat.succ_le_iff, Nat.log2_lt h]

/-! ### The value of a sequence -/

theorem valueFrom_eq (i : Nat) (s : List Byte) : valueFrom i s = 2 ^ (7 * i) * valueOf s := by
  induction s generalizing i with
  | nil => simp [valueFrom, valueOf]
  | cons b s ih =>
    rw [valueOf, valueFrom, valueFrom, ih (i + 1), ih (0 + 1), Nat.shiftLeft_eq, Nat.shiftLeft_eq]
    ring

@[simp] theorem valueOf_nil : valueOf [] = 0 := rfl

theorem valueOf_cons (b : Byte) (s : List Byte) : valueOf (b :: s) = b.toNat % 128 + 128 * valueOf s := by
  rw [valueOf, valueFrom, valueFrom_eq, dataBits_toNat, Nat.shiftLeft_eq]; norm_num

theorem valueOf_append (s r : List Byte) : valueOf (s ++ r) = valueOf s + 2 ^ (7 * s.length) * valueOf r := by
  induction s with
  | nil => simp
  | cons b s ih => rw [List.cons_append, valueOf_cons, valueOf_cons, ih, List.length_cons]; ring

theorem valueOf_lt (s : List Byte) : valueOf s < 2 ^ (7 * s.length) := by
  induction s with
  | nil => decide
  | cons b s ih => rw [valueOf_cons, List.length_cons, Nat.mul_add, Nat.pow_add]; omega

/-! ### ENC -/

/-- The bound on the depth of ENC's recursion does not matter once it is large enough. -/
theorem encWithin_fuel (f g v : Nat) (hf : v < 128 ^ (f + 1)) (hg : v < 128 ^ (g + 1)) :
    encWithin f v = encWithin g v := by
  have hlt : ∀ f, v < 128 → encWithin f v = [BitVec.ofNat 8 v] := by
    intro f h; cases f <;> simp [encWithin, h]
  induction f generalizing g v with
  | zero => rw [hlt _ (by simpa using hf), hlt _ (by simpa using hf)]
  | succ f ih =>
    by_cases h : v < 128
    · rw [hlt _ h, hlt _ h]
    · cases g with
      | zero => simp at hg; omega
      | succ g =>
        simp only [encWithin, h, if_false]
        rw [ih g (v >>> 7)]
        · rw [Nat.shiftRight_eq_div_pow]; rw [Nat.pow_succ] at hf; omega
        · rw [Nat.shiftRight_eq_div_pow]; rw [Nat.pow_succ] at hg; omega
        · intro f h'; cases f <;> simp [encWithin, h']

/-! ### The terminator -/

theorem terminator_eq_some_iff {s : List Byte} {t : Nat} :
    terminator s = some t ↔ (∃ b, s[t]? = some b ∧ contBit b = false) ∧ ∀ c ∈ s.take t, contBit c = true := by
  induction s generalizing t with
  | nil => simp [terminator]
  | cons b s ih =>
    cases hb : contBit b <;> cases t <;> simp [terminator, hb, ih]

theorem terminator_eq_none_iff {s : List Byte} : terminator s = none ↔ ∀ b ∈ s, contBit b = true := by
  induction s with
  | nil => simp [terminator]
  | cons b s ih => cases hb : contBit b <;> simp [terminator, hb, ih]

theorem terminator_lt {s : List Byte} {t : Nat} (h : terminator s = some t) : t < s.length := by
  obtain ⟨⟨b, hb, -⟩, -⟩ := terminator_eq_some_iff.mp h
  exact (List.getElem?_eq_some_iff.mp hb).1

/-! ### The provided sequence -/

theorem provided_length (buf : DecIn) (n : Len) : (provided buf n).length = n.toNat := by simp [provided]

theorem provided_getElem? (buf : DecIn) (n : Len) (i : Nat) :
    (provided buf n)[i]? = if i < n.toNat then some (byteAt buf i) else none := by
  rw [provided, List.getElem?_map]
  by_cases h : i < n.toNat
  · rw [List.getElem?_range h, if_pos h]; rfl
  · rw [List.getElem?_eq_none (by simpa using h), if_neg h]; rfl

theorem provided_congr {buf buf' : DecIn} {n : Len} (h : ∀ i, i < n.toNat → byteAt buf i = byteAt buf' i) :
    provided buf n = provided buf' n := by
  rw [provided, provided, List.map_inj_left]; intro i hi; exact h i (List.mem_range.mp hi)

end Sys2Proof.Machine
end

