-- ==== Sys2Proof/Laws/Machine.lean ====
section
/-! SUPPORT. What an instruction and a step can do, said once. -/

namespace Sys2Proof.Machine

/-- An instruction never stops: each of the four meanings answers a next state. -/
theorem exec_next (i : Instr) (s : State) : ∃ t, exec i s = .next t := by
  cases i with
  | encode v => simp only [exec, execEncode]; cases s.enc.slot <;> exact ⟨_, rfl⟩
  | decode n buf => simp only [exec, execDecode]; cases s.dec.slot <;> exact ⟨_, rfl⟩
  | varintCont d => simp only [exec, execVarintCont]; cases s.dec.work <;> exact ⟨_, rfl⟩
  | varintFinal d => simp only [exec, execVarintFinal]; cases s.dec.work <;> exact ⟨_, rfl⟩

/-! ### A pass of a loop -/

/-- The encoder's working registers after the pass of a clock edge. -/
def encWorkNext : EncWork → Except Fault EncWork
  | .looping v rem k out => encPass v rem k out
  | .idle => .ok .idle
  | .done r => .ok (.done r)

/-- The decoder's working registers after the pass of a clock edge. -/
def decWorkNext : DecWork → Except Fault DecWork
  | .looping buf n acc i =>
    if i = n.toNat then .ok (.done (raiseError .malformedEncoding))
    else
      match memRead buf i with
      | .ok b => .ok (if contBit b then .looping buf n (addGroup acc (dataBits b) i) (i + 1)
          else .done (finishDecode (addGroup acc (dataBits b) i) (i + 1)))
      | .error f => .error f
  | .idle => .ok .idle
  | .done r => .ok (.done r)

/-- A pass of the encoder's loop changes the working registers and nothing else, or stops. -/
theorem runEncLoop_eq (s : State) : runEncLoop s =
    match encWorkNext s.enc.work with
    | .ok w => .next { s with enc := { s.enc with work := w } }
    | .error f => .fault f := by
  obtain ⟨⟨_, _, _, w⟩, _, _, _, _⟩ := s
  cases w <;> rfl

/-- A pass of the decoder's loop changes the working registers and nothing else, or stops. -/
theorem runDecLoop_eq (s : State) : runDecLoop s =
    match decWorkNext s.dec.work with
    | .ok w => .next { s with dec := { s.dec with work := w } }
    | .error f => .fault f := by
  obtain ⟨_, ⟨_, _, _, w⟩, _, _, _⟩ := s
  cases w with
  | idle => rfl
  | done r => rfl
  | looping buf n acc i =>
    simp only [runDecLoop, decWorkNext]
    by_cases h : i = n.toNat
    · simp only [if_pos h]; rfl
    · simp only [if_neg h]
      cases memRead buf i with
      | error f => rfl
      | ok b => simp only [decodePacket, decodeByte]; cases contBit b <;> rfl

/-! ### The step, unit by unit -/

/-- The encoder and its record after an edge with `rst` at 0, `w` being its working registers after the pass: a
presented request is accepted by an EMPTY slot; a response that is valid is taken by a ready host; otherwise a FULL
slot comes nearer to valid. -/
def encNext (p : Pins) (w : EncWork) (u : EncUnit) (log : List (Event Value EncRsp)) :
    EncUnit × List (Event Value EncRsp) :=
  match u.slot with
  | .empty =>
    if p.encReqValid then
      (u.accept (Config.encLatency u.draws p.encReqValue) (encodeRsp p.encReqValue) (startEncode p.encReqValue),
        .req p.encReqValue :: log)
    else ({ u with work := w }, log)
  | .full r =>
    if u.wait = 0 ∧ p.encRspReady = true then ({ u with slot := .empty, work := w }, .rsp r :: log)
    else ({ u with wait := u.wait - 1, work := w }, log)

/-- The decoder and its record after an edge with `rst` at 0. -/
def decNext (p : Pins) (w : DecWork) (u : DecUnit) (log : List (Event DecReq DecRsp)) :
    DecUnit × List (Event DecReq DecRsp) :=
  match u.slot with
  | .empty =>
    if p.decReqValid then
      (u.accept (Config.decLatency u.draws p.decReqLen p.decReqBuf) (decodeRsp p.decReqBuf p.decReqLen)
          (startDecode p.decReqBuf p.decReqLen),
        .req { len := p.decReqLen, buf := p.decReqBuf } :: log)
    else ({ u with work := w }, log)
  | .full r =>
    if u.wait = 0 ∧ p.decRspReady = true then ({ u with slot := .empty, work := w }, .rsp r :: log)
    else ({ u with wait := u.wait - 1, work := w }, log)

theorem step_of_rst {s : State} (h : s.pins.rst = true) : step s = .next (resetUnits s.nextCycle) := if_pos h

theorem runFetched_encFetch (p : Pins) (s : State) : runFetched p.encFetch s =
    .next (match s.enc.slot with
      | .empty => if p.encReqValid then { s with
          enc := s.enc.accept (Config.encLatency s.enc.draws p.encReqValue) (encodeRsp p.encReqValue)
            (startEncode p.encReqValue)
          encLog := .req p.encReqValue :: s.encLog } else s
      | .full _ => s) := by
  cases h : p.encReqValid
  · simp only [Pins.encFetch, h]; cases s.enc.slot <;> rfl
  · simp only [Pins.encFetch, h, if_true, runFetched, decodePacket, exec, execEncode]; cases s.enc.slot <;> rfl

theorem runFetched_decFetch (p : Pins) (s : State) : runFetched p.decFetch s =
    .next (match s.dec.slot with
      | .empty => if p.decReqValid then { s with
          dec := s.dec.accept (Config.decLatency s.dec.draws p.decReqLen p.decReqBuf)
            (decodeRsp p.decReqBuf p.decReqLen) (startDecode p.decReqBuf p.decReqLen)
          decLog := .req { len := p.decReqLen, buf := p.decReqBuf } :: s.decLog } else s
      | .full _ => s) := by
  have hl : (p.decReqLen ++ p.decReqBuf).extractLsb' 120 4 = p.decReqLen := extract_append_high _ _
  have hb : (p.decReqLen ++ p.decReqBuf).extractLsb' 0 120 = p.decReqBuf := extract_append_low _ _
  cases h : p.decReqValid
  · simp only [Pins.decFetch, h]; cases s.dec.slot <;> rfl
  · simp only [Pins.decFetch, h, if_true, runFetched, decodePacket, exec, execDecode, hl, hb]
    cases s.dec.slot <;> rfl

/-- A step with `rst` at 0, unit by unit. -/
theorem step_of_not_rst {s : State} (h : s.pins.rst = false) : step s =
    match encWorkNext s.enc.work with
    | .error f => .fault f
    | .ok we =>
      match decWorkNext s.dec.work with
      | .error f => .fault f
      | .ok wd => .next
        { enc := (encNext s.pins we s.enc s.encLog).1
          dec := (decNext s.pins wd s.dec s.decLog).1
          inputs := s.inputs.tail
          encLog := (encNext s.pins we s.enc s.encLog).2
          decLog := (decNext s.pins wd s.dec s.decLog).2 } := by
  simp only [step, clockEdge, h, Bool.false_eq_true, if_false, runEncLoop_eq, State.nextCycle]
  cases encWorkNext s.enc.work with
  | error f => rfl
  | ok we =>
    simp only [andThen, runDecLoop_eq]
    cases decWorkNext s.dec.work with
    | error f => rfl
    | ok wd =>
      simp only [runFetched_encFetch, runFetched_decFetch, encRspEdge, decRspEdge, encRspValid, decRspValid, h,
        Bool.not_false, Bool.and_true, encNext, decNext]
      generalize s.pins = p
      obtain ⟨⟨esl, ewa, _, _⟩, ⟨dsl, dwa, _, _⟩, _, _, _⟩ := s
      cases esl <;> cases dsl <;> cases p.encReqValid <;> cases p.decReqValid <;> cases p.encRspReady <;>
        cases p.decRspReady <;> cases ewa <;> cases dwa <;> rfl

/-- Everything a step that answers a next state can have done. -/
theorem step_cases {s t : State} (h : step s = .next t) :
    (s.pins.rst = true ∧ t = resetUnits s.nextCycle) ∨
    (s.pins.rst = false ∧ ∃ we wd, encWorkNext s.enc.work = .ok we ∧ decWorkNext s.dec.work = .ok wd ∧
      t = { enc := (encNext s.pins we s.enc s.encLog).1
            dec := (decNext s.pins wd s.dec s.decLog).1
            inputs := s.inputs.tail
            encLog := (encNext s.pins we s.enc s.encLog).2
            decLog := (decNext s.pins wd s.dec s.decLog).2 }) := by
  cases hr : s.pins.rst
  · right
    rw [step_of_not_rst hr] at h
    split at h
    · cases h
    · next we hwe =>
      split at h
      · cases h
      · next wd hwd => exact ⟨rfl, we, wd, hwe, hwd, (Host.Outcome.next.inj h).symm⟩
  · rw [step_of_rst hr] at h
    exact .inl ⟨rfl, (Host.Outcome.next.inj h).symm⟩

end Sys2Proof.Machine
end

