-- ==== Sys2Proof/Laws/PerInstr.lean ====
section
/-! SUPPORT. A statement about every instruction, one lemma for each constructor. -/

namespace Sys2Proof.Laws.EncodingWidth

/-- An instruction is well-formed, and its encoding has as many bytes as its channel's payload. -/
def Statement (i : Instr) : Prop := i.wf = true ∧ (Sys2Proof.encode i).length = i.channel.byteCount

theorem encode (value : Value) : Statement (.encode value) := ⟨rfl, natToBytes_length 8 _⟩

theorem decode (len : Len) (buf : DecIn) : Statement (.decode len buf) := ⟨rfl, natToBytes_length 16 _⟩

theorem varintCont (d : Group) : Statement (.varintCont d) := ⟨rfl, rfl⟩

theorem varintFinal (d : Group) : Statement (.varintFinal d) := ⟨rfl, rfl⟩

end Sys2Proof.Laws.EncodingWidth
end

