-- ==== Sys2Proof/Laws/Safety.lean ====
section
/-! SUPPORT. Quiescence and the end of a host script (70_reset_and_hazards.md R185). -/

namespace Sys2Proof.Machine

theorem State.quiescent_iff (s : State) : s.quiescent = true ↔ s.enc.slot = .empty ∧ s.dec.slot = .empty := by
  unfold State.quiescent
  cases s.enc.slot <;> cases s.dec.slot <;> simp

theorem State.scriptEnded_iff (s : State) :
    s.scriptEnded = true ↔ allAnswered s.encLog = true ∧ allAnswered s.decLog = true ∧
      ∀ p ∈ s.inputs, p.presentsRequest = false := by
  simp [State.scriptEnded, and_assoc]

/-- A record that is a run of the step relation owes no response exactly when the slot it ends in is EMPTY. -/
theorem allAnswered_iff_of_replay {ρ α : Type} [DecidableEq α] {f : ρ → α} {log : List (Event ρ α)} {sl : Slot α}
    (h : replay f log = some sl) : allAnswered log = true ↔ sl = .empty := by
  have count : (acceptedSince log).length = (receivedSince log).length + sl.toList.length := by
    induction log generalizing sl with
    | nil => simp only [replay, Option.some.injEq] at h; subst h; rfl
    | cons e log ih =>
      simp only [replay] at h
      split at h
      · next q hl =>
        have := ih hl
        simp only [Option.some.injEq] at h; subst h
        simpa [acceptedSince, receivedSince, Slot.toList] using this
      · next r r' hl =>
        have := ih hl
        split at h
        · simp only [Option.some.injEq] at h; subst h
          simpa [acceptedSince, receivedSince, Slot.toList] using this
        · cases h
      · simp only [Option.some.injEq] at h; subst h; rfl
      · cases h
  rw [allAnswered, beq_iff_eq, count]
  cases sl <;> simp [Slot.toList]

/-- In a state of a run a script has ended exactly when the block is quiescent and no further request is presented. -/
theorem State.scriptEnded_iff_quiescent {s : State} (h : Inv s) :
    s.scriptEnded = true ↔ s.quiescent = true ∧ ∀ p ∈ s.inputs, p.presentsRequest = false := by
  rw [State.scriptEnded_iff, State.quiescent_iff, allAnswered_iff_of_replay h.1, allAnswered_iff_of_replay h.2.1,
    and_assoc]

/-- A state with a FULL slot is not an end state: a response is still owed to the host. -/
theorem State.scriptEnded_of_full {s : State} (h : Inv s) (hf : s.enc.slot ≠ .empty ∨ s.dec.slot ≠ .empty) :
    s.scriptEnded = false := by
  rw [← Bool.not_eq_true, State.scriptEnded_iff_quiescent h, State.quiescent_iff]
  rintro ⟨⟨he, hd⟩, -⟩
  exact hf.elim (fun c => c he) (fun c => c hd)

theorem State.pins_presentsRequest {s : State} (h : ∀ p ∈ s.inputs, p.presentsRequest = false) :
    s.pins.presentsRequest = false := by
  unfold State.pins
  cases hi : s.inputs with
  | nil => rfl
  | cons p ps => exact h p (by rw [hi]; exact List.mem_cons_self)

/-- A script that has ended stays ended, and the block stays quiescent. -/
theorem State.scriptEnded_step {s t : State} (hi : Inv s) (h : s.scriptEnded = true) (hs : step s = .next t) :
    t.scriptEnded = true ∧ t.quiescent = true := by
  obtain ⟨hq, hp⟩ := (State.scriptEnded_iff_quiescent hi).mp h
  obtain ⟨he, hd⟩ := s.quiescent_iff.mp hq
  obtain ⟨hae, had, -⟩ := s.scriptEnded_iff.mp h
  have htail : ∀ p ∈ s.inputs.tail, p.presentsRequest = false := fun p hm => hp p (List.mem_of_mem_tail hm)
  have hreq := State.pins_presentsRequest hp
  simp only [Pins.presentsRequest, Bool.or_eq_false_iff] at hreq
  rw [State.scriptEnded_iff, State.quiescent_iff]
  rcases step_cases hs with ⟨-, rfl⟩ | ⟨-, we, wd, -, -, rfl⟩
  · exact ⟨⟨rfl, rfl, htail⟩, rfl, rfl⟩
  · simp only [encNext, decNext, he, hd, hreq.1, hreq.2, Bool.false_eq_true, if_false]
    exact ⟨⟨hae, had, htail⟩, trivial, trivial⟩

end Sys2Proof.Machine
end

