-- ==== Sys2Proof/Tests/Slice0.lean ====
section
/-! SUPPORT. The model's own tests. Expected results are the spec's: the vectors S1 to S12, VE, VD and VH and the host
scripts of 95_test_vectors.md, the examples of 30_encoding.md R66, and words written out from 30_encoding.md R60,
R68 and R70. The witness theorems show, for each obligation that has hypotheses, a concrete case that meets them all. -/

namespace Sys2Proof.Tests

open Sys2Proof.Machine

/-! ### Helpers -/

/-- The ENC_RSP word in the encoder's slot after a step. -/
def encWord (o : Outcome) : Option (BitVec 86) :=
  match o with
  | .next t => (match t.enc.slot with | .full r => some r.pack | .empty => none)
  | .fault _ => none
  | .refused _ => none

/-- The DEC_RSP word in the decoder's slot after a step. -/
def decWord (o : Outcome) : Option (BitVec 70) :=
  match o with
  | .next t => (match t.dec.slot with | .full r => some r.pack | .empty => none)
  | .fault _ => none
  | .refused _ => none

/-- The decoder's working registers after a step. -/
def workAfter (o : Outcome) : Option DecWork :=
  match o with
  | .next t => some t.dec.work
  | .fault _ => none
  | .refused _ => none

/-- The whole state after a step. -/
def stateAfter (o : Outcome) : Option State :=
  match o with
  | .next t => some t
  | .fault _ => none
  | .refused _ => none

/-- Whether a step answers a next state. -/
def completes (o : Outcome) : Bool :=
  match o with
  | .next _ => true
  | .fault _ => false
  | .refused _ => false

/-- The response of ENCODE to 150 (S1). -/
def rsp150 : EncRsp := { status := .ok, len := 2, bytes := 0x0196 }

/-- The response of DECODE to `96 01` (VD8). -/
def value150 : DecRsp := { status := .ok, consumed := 2, value := 150 }

/-- The response of DECODE to `96` (VD7). -/
def malformed : DecRsp := { status := .malformedEncoding, consumed := 0, value := 0 }

/-- A cycle in which the host drives nothing but `rst`. -/
def rstCycle : Pins := { Pins.quiet with rst := true }

/-- A cycle in which the host is ready for both responses. -/
def readyCycle : Pins := { Pins.quiet with encRspReady := true, decRspReady := true }

/-- Both slots FULL and valid, both loops about to make their first pass, and a record of the requests; the host
drives `ps`. -/
def busy (ps : List Pins) : State :=
  { enc := { slot := .full rsp150, wait := 0, draws := 1, work := .looping 150 150 0 0 }
    dec := { slot := .full value150, wait := 0, draws := 1, work := .looping 0xFF0196 3 0 0 }
    inputs := ps
    encLog := [.req 150]
    decLog := [.req { len := 3, buf := 0xFF0196 }] }

/-- `busy`, with responses that become valid after three more edges and after one. -/
def waiting (ps : List Pins) : State :=
  { busy ps with enc := { (busy ps).enc with wait := 3 }, dec := { (busy ps).dec with wait := 1 } }

/-- The decoder holds an error, and the host drives `ps`. -/
def failed (ps : List Pins) : State :=
  { State.reset with
    dec := { slot := .full malformed, wait := 0, draws := 1, work := .done malformed }
    inputs := ps
    decLog := [.req { len := 1, buf := 0x96 }] }

/-! ### Ill-formed terms: every check of WellFormed refuses one -/

theorem test_instr_none_ill_formed : (Instr.decode 0 0).wf = true ∧ (Instr.decode 15 (BitVec.allOnes 120)).wf = true := by
  decide

theorem test_isTerminated_refuses : isTerminated [] = false ∧ isTerminated [0x96] = false := by decide

theorem test_isEncodedForm_refuses :
    isEncodedForm [] = false ∧ isEncodedForm [0x96] = false ∧ isEncodedForm [0x96, 0x01, 0xFF] = false ∧
    isEncodedForm [0x00, 0x01] = false := by decide

/-- 30_encoding.md R66. -/
theorem test_isMinimal_refuses :
    isMinimal [0x80, 0x00] = false ∧ isMinimal [0x96, 0x81, 0x00] = false ∧ isMinimal [0xFF, 0x80, 0x80, 0x00] = false ∧
    isMinimal [0x00] = true ∧ isMinimal [0x96, 0x01] = true := by decide

theorem test_encRsp_legal_refuses :
    ({ status := .invalidInput, len := 1, bytes := 0 } : EncRsp).legal = false ∧
    ({ status := .ok, len := 0, bytes := 0 } : EncRsp).legal = false ∧
    ({ status := .ok, len := 11, bytes := 0x0196 } : EncRsp).legal = false ∧
    ({ status := .ok, len := 2, bytes := 0x8196 } : EncRsp).legal = false ∧
    ({ status := .ok, len := 2, bytes := 0x0116 } : EncRsp).legal = false ∧
    ({ status := .ok, len := 2, bytes := 0x010196 } : EncRsp).legal = false ∧ rsp150.legal = true := by decide

theorem test_decRsp_legal_refuses :
    ({ status := .invalidInput, consumed := 0, value := 0 } : DecRsp).legal = false ∧
    ({ status := .ok, consumed := 0, value := 0 } : DecRsp).legal = false ∧
    ({ status := .malformedEncoding, consumed := 1, value := 0 } : DecRsp).legal = false ∧
    ({ status := .valueOverflow, consumed := 0, value := 5 } : DecRsp).legal = false ∧ value150.legal = true := by
  decide

/-! ### Decoding words written out bit by bit -/

/-- R68: bits 63 to 0 are the Value. -/
theorem test_decode_word_encode :
    decodeTableWord 64 0b1000000000000000000000000000000000000000000000000000000010010110
      = some (.encode 0x8000000000000096) := by decide

/-- R70: `{len, buf}`; here len is 0b0011 and the bytes are `96 01 FF`. -/
theorem test_decode_word_decode :
    decodeTableWord 124 0x3000000000000000000000000FF0196 = some (.decode 0b0011 0xFF0196) ∧
    decodeTableWord 128 0xF000000000000000000000000000080 = some (.decode 0b1111 0x80) := by decide

/-- R60: `1ddddddd`. -/
theorem test_decode_word_cont :
    decodeTableWord 8 0b10010110 = some (.varintCont 0b0010110) ∧ decodeTableWord 8 0b10000000 = some (.varintCont 0) := by
  decide

/-- R60: `0ddddddd`. -/
theorem test_decode_word_final :
    decodeTableWord 8 0b01111111 = some (.varintFinal 0b1111111) ∧ decodeTableWord 8 0 = some (.varintFinal 0) := by
  decide

theorem test_decode_rejects :
    decode .encReq [0x96] = .error (.wrongLength 8 1) ∧
    decode .decReq (natToBytes 16 (2 ^ 124)) = .error .paddingSet ∧
    decodeTableWord 16 0x0196 = none ∧ decodeTableWord 128 (2 ^ 124) = none ∧ decodeTableWord 8 256 = none := by decide

/-! ### One step of each instruction, as the first after reset -/

/-- S1. -/
theorem test_step_encode_150 :
    encWord (step (State.reset.withFetchWord 64 0x96)) = some 0x0200000000000000000196 := by decide

/-- VE43. -/
theorem test_step_encode_max :
    encWord (step (State.reset.withFetchWord 64 0xFFFFFFFFFFFFFFFF)) = some 0x0A01FFFFFFFFFFFFFFFFFF := by decide

/-- VD9: the trailing byte is not consumed. -/
theorem test_step_decode_trailing :
    decWord (step (State.reset.withFetchWord 128 0x3000000000000000000000000FF0196)) = some 0x020000000000000096 := by
  decide

/-- VD28: one more than the maximum. -/
theorem test_step_decode_overflow :
    decWord (step (State.reset.withFetchWord 128 0xA000000000002808080808080808080)) = some 0x300000000000000000 := by
  decide

/-- R125: after the byte `96` at position 0 the accumulator is 22 and the scan goes on. -/
theorem test_step_cont :
    workAfter (step (State.reset.withFetchWord 8 0x96)) = some (.looping 0x96 1 22 1) := by decide

/-- R125: the second byte of `96 01` completes the value 150, with 2 bytes consumed. -/
theorem test_exec_final :
    workAfter (exec (.varintFinal 1) { State.reset with
      dec := { State.reset.dec with work := .looping 0x0196 2 22 1 } }) = some (.done value150) := by decide

/-- VD2 as a loop: the byte `00` alone is the value 0. -/
theorem test_step_final :
    workAfter (step (State.reset.withFetchWord 8 0x00)) = some (.done { status := .ok, consumed := 1, value := 0 }) := by
  decide

/-! ### Vectors -/

/-- VE1, VE8, VE9, VE15, VE16. -/
theorem test_encode_vectors_short :
    (encodeRsp 0).pack = 0x0100000000000000000000 ∧ (encodeRsp 127).pack = 0x010000000000000000007F ∧
    (encodeRsp 128).pack = 0x0200000000000000000180 ∧ (encodeRsp 0x3FFF).pack = 0x0200000000000000007FFF ∧
    (encodeRsp 0x4000).pack = 0x0300000000000000018080 := by decide

/-- VE37, VE39, VE40. -/
theorem test_encode_vectors_long :
    (encodeRsp 0x0123456789ABCDEF).pack = 0x09000191D1ACF8CDAF9BEF ∧
    (encodeRsp 0x7FFFFFFFFFFFFFFF).pack = 0x09007FFFFFFFFFFFFFFFFF ∧
    (encodeRsp 0x8000000000000000).pack = 0x0A01808080808080808080 := by decide

/-- VD1, VD7, VD42, VD43, VD45. -/
theorem test_decode_vectors_malformed :
    (decodeRsp 0 0).pack = 0x200000000000000000 ∧ (decodeRsp 0x96 1).pack = 0x200000000000000000 ∧
    (decodeRsp 0x808080808080808080808080808080 15).pack = 0x200000000000000000 ∧
    (decodeRsp (BitVec.allOnes 120) 15).pack = 0x200000000000000000 ∧
    (decodeRsp 0x0196 1).pack = 0x200000000000000000 := by decide

/-- VD18, VD21, VD26, VD39, VD40, VD46. -/
theorem test_decode_vectors_ok :
    (decodeRsp 0x268EE5 3).pack = 0x030000000000098765 ∧ (decodeRsp 0x008196 3).pack = 0x030000000000000096 ∧
    (decodeRsp 0x01FFFFFFFFFFFFFFFFFF 10).pack = 0x0AFFFFFFFFFFFFFFFF ∧
    (decodeRsp 0x008080808081FFFFFFFFFFFFFFFFFF 15).pack = 0x0FFFFFFFFFFFFFFFFF ∧
    (decodeRsp 0x008080808080808080808080808080 15).pack = 0x0F0000000000000000 ∧
    (decodeRsp 0xFFFFFFFFFFFFFFFFFFFFFFFFFF0196 2).pack = 0x020000000000000096 := by decide

/-- VD33, VD34, VD35. -/
theorem test_decode_vectors_overflow :
    (decodeRsp 0x0180808080808080808080 11).pack = 0x300000000000000000 ∧
    (decodeRsp 0x018080808080808080808080808080 15).pack = 0x300000000000000000 ∧
    (decodeRsp 0x0082808080808080808080 11).pack = 0x300000000000000000 := by decide

/-- VH4, VH5, VH6, VH8, VH9. -/
theorem test_helper_vectors :
    byteLen 256 = 2 ∧ byteLen 65536 = 3 ∧ byteLen (2 ^ 64 - 1) = 8 ∧ binFmt [0x96, 0x01] = "10010110 00000001".toList ∧
    binFmt [0x00] = "00000000".toList := by decide

/-! ### Steps of the host scripts -/

/-- P4, step 4: the decoder's response is taken and the encoder's stays. -/
theorem test_take_decoder_response :
    stateAfter (step (busy [{ Pins.quiet with decRspReady := true }])) = some { busy [] with
      enc := { slot := .full rsp150, wait := 0, draws := 1, work := .looping 150 1 1 0x96 }
      dec := { slot := .empty, wait := 0, draws := 1, work := .looping 0xFF0196 3 22 1 }
      decLog := [.rsp value150, .req { len := 3, buf := 0xFF0196 }] } := by decide

/-- P4, step 2: a request is not accepted by a FULL slot, nor at the edge at which the response leaves (R189). -/
theorem test_no_accept_while_full :
    encWord (step (busy [presentEncode 1])) = some 0x0200000000000000000196 ∧
    encWord (step (busy [{ presentEncode 1 with encRspReady := true }])) = none := by decide

/-- P5, step 2: reset drops the responses, accepts nothing and delivers nothing. -/
theorem test_reset_drops :
    stateAfter (step (busy [{ readyCycle with rst := true, encReqValid := true, decReqValid := true }])) = some { busy [] with
      enc := { slot := .empty, wait := 0, draws := 1, work := .idle }
      dec := { slot := .empty, wait := 0, draws := 1, work := .idle }
      encLog := [.reset, .req 150]
      decLog := [.reset, .req { len := 3, buf := 0xFF0196 }] } := by decide

/-- R185: nothing owed and nothing to come is the end; a FULL slot, or a request still to come, is not; P5, step 3: a
response that a reset dropped is not owed. -/
theorem test_script_end :
    State.reset.scriptEnded = true ∧ (busy []).scriptEnded = false ∧ (failed []).scriptEnded = false ∧
    ({ State.reset with inputs := [Pins.quiet, presentDecode 0 0] } : State).scriptEnded = false ∧
    ({ State.reset with inputs := [Pins.quiet, presentEncode 0] } : State).scriptEnded = false ∧
    ({ State.reset with inputs := [readyCycle], encLog := [.reset, .req 150] } : State).scriptEnded = true ∧
    ({ State.reset with decLog := [.rsp malformed, .req { len := 1, buf := 0x96 }] } : State).scriptEnded = true := by
  decide

/-! ### Witnesses: reset and ENCODE -/

theorem witness_ResetEmptiesBothSlotsAndDropsResponses :
    (busy [rstCycle]).pins.rst = true ∧ (busy [rstCycle]).enc.slot.isFull = true ∧
    completes (step (busy [rstCycle])) = true := by decide

theorem witness_EncodeAcceptedFillsTheSlot : State.reset.enc.slot = .empty := by decide

theorem witness_EncodeWaitsWhileTheSlotIsFull : (busy []).enc.slot = .full rsp150 := by decide

/-- The three clauses of the closed form meet at `k + 1 = L`: L is 1, 2 and 10 at the ends of the ranges. -/
theorem witness_EncodeResponseClosedForm :
    State.reset.enc.slot = .empty ∧ (refEnc 127).length = 1 ∧ (refEnc 128).length = 2 ∧
    (refEnc 0x7FFFFFFFFFFFFFFF).length = 9 ∧ (refEnc 0x8000000000000000).length = 10 ∧ (refEnc 0xFFFFFFFFFFFFFFFF).length = 10 := by decide

/-- R91 and R99: both clauses, at the values where they meet. -/
theorem witness_EncFollowsItsRecursion :
    127 < 128 ∧ refEnc 127 = [0x7F] ∧ 128 ≤ 128 ∧ refEnc 128 = [0x80, 0x01] := by decide

theorem witness_EncodingLengthIsCeilOfBitLength : 0 < 1 ∧ (refEnc 1).length = 1 ∧ bitLength 1 = 1 := by decide

theorem witness_ContinuationBitDiscipline :
    (refEnc 16384)[0]? = some 0x80 ∧ (refEnc 16384)[1]? = some 0x80 ∧ (refEnc 16384)[2]? = some 0x01 := by decide

theorem witness_EncodingIsShortestAndPaddedWithZeros :
    (isEncodedForm [0x80, 0x81, 0x00] = true ∧ valueOf [0x80, 0x81, 0x00] = 128) ∧
    ((encodeRsp 127).len.toNat ≤ 1) ∧ ((encodeRsp 0x7FFFFFFFFFFFFFFF).len.toNat ≤ 9) := by decide

theorem witness_MinimalEncodingExistsAndIsUnique :
    isEncodedForm [0x80, 0x00] = true ∧ isEncodedForm [0x00] = true ∧
    (isMinimal [0x96, 0x01] = true ∧ valueOf [0x96, 0x01] = 150) := by decide

theorem witness_EncodingCanBeInverted : refEnc 150 = refEnc 0x96 := by decide

theorem witness_EncodingLengthTable :
    (1 ≤ 1 ∧ 1 ≤ 10 ∧ (encodeRsp 127).len = 1) ∧ (1 ≤ 2 ∧ 2 ≤ 10 ∧ (encodeRsp 128).len = 2) ∧
    (1 ≤ 10 ∧ 10 ≤ 10 ∧ (encodeRsp 0x8000000000000000).len = 10) := by decide

/-- VE40; VD32 for position 9, VD33 for position 10, VD34 for position 14. -/
theorem witness_TenthByteHoldsBit63Only :
    (encodeRsp 0x8000000000000000).len.toNat = 10 ∧
    (terminator (provided 0x40808080808080808080 10) = some 9 ∧
      (byteAt (0x40808080808080808080 : DecIn) 9).extractLsb' 1 6 ≠ 0) ∧
    (terminator (provided 0x0180808080808080808080 11) = some 10 ∧
      dataBits (byteAt (0x0180808080808080808080 : DecIn) 10) ≠ 0) ∧
    (terminator (provided 0x018080808080808080808080808080 15) = some 14 ∧
      dataBits (byteAt (0x018080808080808080808080808080 : DecIn) 14) ≠ 0) := by decide

/-- Bits at the ends of groups 0, 1 and 9. -/
theorem witness_ValueBitLivesInByteOfItsGroup :
    (byteAt (encodeRsp 0x40).bytes 0).getLsbD 6 = true ∧ (byteAt (encodeRsp 0x80).bytes 1).getLsbD 0 = true ∧
    (byteAt (encodeRsp 0x8000000000000000).bytes 9).getLsbD 0 = true := by decide

theorem witness_GroupIsSliceOfTheValue :
    isEncodedForm [0x96, 0x01] = true ∧ ([0x96, 0x01] : List Byte)[1]? = some 0x01 := by decide

/-! ### Witnesses: DECODE -/

theorem witness_DecodeAcceptedFillsTheSlot : State.reset.dec.slot = .empty := by decide

theorem witness_DecodeWaitsWhileTheSlotIsFull : (busy []).dec.slot = .full value150 := by decide

/-- VD5, VD1, and VD9 with the terminator at position 1. -/
theorem witness_DecStopsAtFirstFinalByte :
    (∀ b ∈ ([0x80] : List Byte), contBit b = true) ∧ (∀ b ∈ ([] : List Byte), contBit b = true) ∧
    (([0x96, 0x01, 0xFF] : List Byte)[1]? = some 0x01 ∧ contBit 0x01 = false ∧
      ∀ c ∈ ([0x96, 0x01, 0xFF] : List Byte).take 1, contBit c = true) := by decide

/-- VD7; VD28 and VD26, the values 2^64 and 2^64 - 1; VD7 and VD45 agree on one byte; VD8 and VD46 on two. -/
theorem witness_DecodeResponseFunction :
    State.reset.dec.slot = .empty ∧ refDec (provided 0x96 1) = .malformed ∧
    refDec (provided 0x02808080808080808080 10) = .ok (2 ^ 64) 10 ∧
    refDec (provided 0x01FFFFFFFFFFFFFFFFFF 10) = .ok (2 ^ 64 - 1) 10 ∧
    (∀ i, i < (1 : Len).toNat → byteAt (0x96 : DecIn) i = byteAt (0x0196 : DecIn) i) ∧
    (terminator (provided 0x0196 3) = some 1 ∧
      ∀ i, i ≤ 1 → byteAt (0x0196 : DecIn) i = byteAt (0xFF0196 : DecIn) i) := by decide

/-- VD8 and VD9. -/
theorem witness_BytesAfterTheTerminatorAreNotExamined :
    1 < (2 : Len).toNat ∧ 1 < (3 : Len).toNat ∧ (∀ i, i < 1 → contBit (byteAt (0x0196 : DecIn) i) = true) ∧
    contBit (byteAt (0x0196 : DecIn) 1) = false ∧
    (∀ i, i ≤ 1 → byteAt (0xFF0196 : DecIn) i = byteAt (0x0196 : DecIn) i) := by decide

/-- VD11 with one byte consumed, VD40 with fifteen. -/
theorem witness_ConsumedIsTerminatorPlusOne :
    (decodeRsp 0x019600 3).status = .ok ∧ (decodeRsp 0x008080808080808080808080808080 15).status = .ok := by decide

theorem witness_EmptyInputIsMalformed : State.reset.dec.slot = .empty := by decide

/-- VD45 (a final byte at position n) and VD42. -/
theorem witness_UnterminatedInputIsMalformed :
    State.reset.dec.slot = .empty ∧
    (0 < (1 : Len).toNat ∧ ∀ i, i < (1 : Len).toNat → contBit (byteAt (0x0196 : DecIn) i) = true) ∧
    (0 < (15 : Len).toNat ∧
      ∀ i, i < (15 : Len).toNat → contBit (byteAt (0x808080808080808080808080808080 : DecIn) i) = true) := by decide

/-- VD19, and VD39 with the greatest value in fifteen bytes. -/
theorem witness_NonMinimalInputIsAccepted :
    (terminator (provided 0x0080 2) = some 1 ∧ isMinimal ((provided 0x0080 2).take 2) = false ∧
      valueOf ((provided 0x0080 2).take 2) < 2 ^ 64) ∧
    (terminator (provided 0x008080808081FFFFFFFFFFFFFFFFFF 15) = some 14 ∧
      isMinimal ((provided 0x008080808081FFFFFFFFFFFFFFFFFF 15).take 15) = false ∧
      valueOf ((provided 0x008080808081FFFFFFFFFFFFFFFFFF 15).take 15) < 2 ^ 64) := by decide

theorem witness_OverflowExactlyWhenTheValueDoesNotFit :
    (decodeRsp 0x02808080808080808080 10).status = .valueOverflow ∧
    (decodeRsp 0x01FFFFFFFFFFFFFFFFFF 10).status = .ok := by decide

theorem witness_ErrorResponsesCarryZerosInPriorityOrder :
    (decodeRsp 0x96 1).status ≠ .ok ∧ (decodeRsp 0x02808080808080808080 10).status ≠ .ok := by decide

/-- VD1, VD7, VD28, VD19 and VD8: one request of each class. -/
theorem witness_FiveInputClassesDecideTheOutcome :
    isEmptyInput (provided 0 0) = true ∧ isUnterminatedInput (provided 0x96 1) = true ∧
    isOverflowingInput (provided 0x02808080808080808080 10) = true ∧ isNonMinimalInput (provided 0x0080 2) = true ∧
    isCanonicalInput (provided 0x0196 2) = true ∧ isTerminated [0x96, 0x01] = true := by decide

/-- VD9; VD8 minimal and VD19 not. -/
theorem witness_DecodeInvertsEncode :
    State.reset.dec.slot = .empty ∧
    (provided 0xFF0196 3).take (encodeRsp 150).len.toNat = (encodeRsp 150).encoding ∧
    (refDec [0x96, 0x01] = .ok 150 2 ∧ isMinimal (([0x96, 0x01] : List Byte).take 2) = true) ∧
    (refDec [0x80, 0x00] = .ok 0 2 ∧ isMinimal (([0x80, 0x00] : List Byte).take 2) = false) := by decide

theorem witness_TruncatedEncodingIsMalformed :
    ((1 : Len).toNat < (encodeRsp 150).len.toNat ∧ provided 0x96 1 = (encodeRsp 150).encoding.take (1 : Len).toNat) ∧
    ((0 : Len).toNat < (encodeRsp 0).len.toNat ∧ provided 0 0 = (encodeRsp 0).encoding.take (0 : Len).toNat) := by decide

/-! ### Witnesses: the loops and the byte forms -/

theorem witness_DecodeLoopBuildsTheResponse : (busy []).dec.work = .looping 0xFF0196 3 0 0 := by decide

theorem witness_EncodeLoopBuildsTheResponse : (busy []).enc.work = .looping 150 150 0 0 := by decide

theorem witness_ContinuationByteExtendsTheScan : (busy []).dec.work = .looping 0xFF0196 3 0 0 := by decide

/-- A final byte that fits, and one whose group goes to 2^64. -/
theorem witness_FinalByteEndsTheScan :
    (busy []).dec.work = .looping 0xFF0196 3 0 0 ∧ ¬ 2 ^ 64 ≤ 0 ||| ((1 : Group).toNat <<< (7 * 9)) ∧
    2 ^ 64 ≤ 0 ||| ((2 : Group).toNat <<< (7 * 9)) := by decide

theorem witness_ByteFormOutsideALoopChangesNothing : ∀ buf n acc i, State.reset.dec.work ≠ .looping buf n acc i := by
  intro buf n acc i h
  cases h

/-! ### Witnesses: encodings -/

theorem witness_EveryByteIsOneOfTwoForms :
    (0x80 : Byte)[7] = true ∧ (0xFF : Byte)[7] = true ∧ (0x00 : Byte)[7] = false ∧ (0x7F : Byte)[7] = false := by decide

theorem witness_DecodedBytesAreTheEncoding : decode .wireByte [0x96] = .ok (.varintCont 0x16) := by decide

theorem witness_DecoderRejectsByName :
    ([0x96] : List Byte).length ≠ Channel.encReq.byteCount ∧
    (natToBytes 16 (2 ^ 124)).length = Channel.decReq.byteCount ∧
    (natToBytes 16 (2 ^ 124 - 1)).length = Channel.decReq.byteCount ∧
    decode .decReq (natToBytes 16 (2 ^ 124 - 1)) ≠ .error .paddingSet := by decide

/-! ### Witnesses: the clock edge -/

theorem witness_StepRunsTheDecodedInstructions :
    ((busy [presentEncode 1]).pins.rst = false ∧
      decode .encReq (natToBytes 8 (busy [presentEncode 1]).pins.encReqValue.toNat) = .ok (.encode 1) ∧
      decode .decReq (natToBytes 16 ((busy [presentEncode 1]).pins.decReqLen ++
        (busy [presentEncode 1]).pins.decReqBuf).toNat) = .ok (.decode 0 0)) ∧
    ((busy []).dec.work = .looping 0xFF0196 3 0 0 ∧ 0 < (3 : Len).toNat ∧
      decode .wireByte [byteAt (0xFF0196 : DecIn) 0] = .ok (.varintCont 0x16)) := by decide

theorem witness_PlacedInstructionRunsInTheNextStep :
    decodeTableWord 64 0x96 = some (.encode 150) ∧
    decodeTableWord 128 0x2000000000000000000000000000196 = some (.decode 2 0x0196) ∧
    decodeTableWord 8 0x96 = some (.varintCont 0x16) ∧ decodeTableWord 8 0x01 = some (.varintFinal 1) := by decide

/-- A reset, an acceptance and a delivery. -/
theorem witness_TransferExactlyOnValidAndReady :
    ((busy [rstCycle]).pins.rst = true ∧ completes (step (busy [rstCycle])) = true) ∧
    (encReqReady (State.reset.withFetchWord 64 0x96) = true ∧
      completes (step (State.reset.withFetchWord 64 0x96)) = true) ∧
    (encRspPayload (busy [readyCycle]) = some rsp150 ∧ decRspPayload (busy [readyCycle]) = some value150 ∧
      completes (step (busy [readyCycle])) = true) := by decide

theorem witness_PresentedResponseIsHeld :
    ∃ t, step (busy []) = .next t ∧ (busy []).pins.rst = false ∧ t.pins.rst = false ∧
      encRspValid (busy []) = true ∧ (busy []).pins.encRspReady = false ∧
      decRspValid (busy []) = true ∧ (busy []).pins.decRspReady = false := ⟨_, rfl, by decide⟩

theorem witness_PresentedResponseIsHeld_ready :
    encReqReady State.reset = true ∧ decReqReady State.reset = true := by decide

/-- Both transfers at an edge, and neither. -/
theorem witness_FullSlotHoldsUntilTaken :
    (∃ t, step (busy [readyCycle]) = .next t ∧ (busy [readyCycle]).pins.rst = false ∧
      (busy [readyCycle]).enc.slot = .full rsp150 ∧ (busy [readyCycle]).dec.slot = .full value150 ∧
      (encRspValid (busy [readyCycle]) && (busy [readyCycle]).pins.encRspReady) = true ∧
      (decRspValid (busy [readyCycle]) && (busy [readyCycle]).pins.decRspReady) = true) ∧
    (∃ t, step (busy []) = .next t ∧ (busy []).pins.rst = false ∧
      (encRspValid (busy []) && (busy []).pins.encRspReady) = false ∧
      (decRspValid (busy []) && (busy []).pins.decRspReady) = false) :=
  ⟨⟨_, rfl, by decide⟩, ⟨_, rfl, by decide⟩⟩

/-! ### Witnesses: invariants -/

theorem busy_inv (ps : List Pins) : Inv (busy ps) := by
  have he : encConsistent (busy []).enc := ⟨by decide, by decide, by decide, by decide, .inr (by decide)⟩
  have hd : decConsistent (busy []).dec := ⟨by decide, by decide, by decide, .inr (by decide)⟩
  have hr : replay encodeRsp (busy []).encLog = some (busy []).enc.slot := by decide
  have hr' : replay decodeReq (busy []).decLog = some (busy []).dec.slot := by decide
  exact ⟨hr, hr', he, hd⟩

theorem failed_inv (ps : List Pins) : Inv (failed ps) := by
  have hr : replay decodeReq (failed []).decLog = some (failed []).dec.slot := by decide
  exact ⟨rfl, hr, rfl, .inr rfl⟩

/-- FULL slots with a response to wait for, no reset to come, and a request to an EMPTY slot. -/
theorem witness_RequestsAndResponsesAreServed :
    (Inv (busy [readyCycle]) ∧ (busy [readyCycle]).enc.slot = .full rsp150 ∧
      (busy [readyCycle]).dec.slot = .full value150 ∧ (∀ p ∈ (busy [readyCycle]).inputs, p.rst = false) ∧
      encRspValid (busy [readyCycle]) = true ∧ decRspValid (busy [readyCycle]) = true) ∧
    (Inv (failed [presentEncode 1]) ∧ (failed [presentEncode 1]).pins.rst = false ∧
      (failed [presentEncode 1]).enc.slot = .empty ∧ (failed [presentEncode 1]).pins.encReqValid = true) ∧
    (Inv State.reset ∧ State.reset.pins.rst = false ∧ State.reset.dec.slot = .empty) :=
  ⟨⟨busy_inv _, by decide⟩, ⟨failed_inv _, by decide⟩, ⟨⟨rfl, rfl, rfl, rfl⟩, by decide⟩⟩

/-- Responses whose drawn latency asks for three more edges and for one, with a list of one cycle;
and a DECODE request presented to an EMPTY slot while the encoder waits. -/
theorem witness_RequestsAndResponsesAreServed_waiting :
    (Inv (waiting [Pins.quiet]) ∧ (waiting [Pins.quiet]).enc.slot = .full rsp150 ∧
      (waiting [Pins.quiet]).dec.slot = .full value150 ∧ 0 < (waiting [Pins.quiet]).enc.wait ∧
      0 < (waiting [Pins.quiet]).dec.wait ∧ (∀ p ∈ (waiting [Pins.quiet]).inputs, p.rst = false)) ∧
    (Inv { waiting [presentDecode 2 0x0196] with dec := State.reset.dec, decLog := [] } ∧
      (waiting [presentDecode 2 0x0196]).pins.rst = false ∧
      State.reset.dec.slot = .empty ∧ (waiting [presentDecode 2 0x0196]).pins.decReqValid = true) :=
  ⟨⟨busy_inv [Pins.quiet], by decide⟩, ⟨⟨(busy_inv []).1, rfl, (busy_inv []).2.2.1, rfl⟩, by decide⟩⟩

theorem witness_EveryStepKeepsTheRunInvariant :
    ∃ t, Inv (busy [readyCycle]) ∧ step (busy [readyCycle]) = .next t := ⟨_, busy_inv _, rfl⟩

theorem witness_NoStepOfARunStops : Inv (busy []) ∧ Inv (failed []) := ⟨busy_inv _, failed_inv _⟩

theorem witness_ReservedResponseValuesAreNeverProduced :
    ∃ t, SlotsLegal (busy []) ∧ step (busy []) = .next t := by
  refine ⟨_, ⟨?_, ?_⟩, rfl⟩
  · intro r h
    have : rsp150 = r := by injection h
    subst this; decide
  · intro r h
    have : value150 = r := by injection h
    subst this; decide

/-- Slots that owe a response; and a record with a response received. -/
theorem witness_ResponsesAnswerRequestsInOrder : Inv (busy []) ∧
    Inv { State.reset with decLog := [.rsp malformed, .req { len := 1, buf := 0x96 }] } :=
  ⟨busy_inv _, by decide, by decide, rfl, rfl⟩

/-- The encoders agree, the decoders do not; and the other way round. -/
theorem witness_UnitsAreIndependent :
    (∃ t t', step (busy []) = .next t ∧
      step { busy [{ Pins.quiet with decRspReady := true }] with dec := (failed []).dec } = .next t' ∧
      (busy []).pins.encSide = (busy [{ Pins.quiet with decRspReady := true }]).pins.encSide) ∧
    (∃ t t', step (busy []) = .next t ∧ step { busy [presentEncode 1] with enc := State.reset.enc } = .next t' ∧
      (busy []).pins.decSide = (busy [presentEncode 1]).pins.decSide) :=
  ⟨⟨_, _, rfl, rfl, by decide⟩, ⟨_, _, rfl, rfl, by decide⟩⟩

/-- `busy` with other working registers. -/
def busyElsewhere (ps : List Pins) : State :=
  { busy ps with
    enc := { (busy ps).enc with work := .done rsp150 }
    dec := { (busy ps).dec with work := .idle } }

/-- A step of each of two states that differ in the working registers: one that takes the responses, and one that
accepts a request. -/
theorem witness_WorkingRegistersAreInvisible :
    (∃ t t', SameButWork (busy [readyCycle]) (busyElsewhere [readyCycle]) ∧ step (busy [readyCycle]) = .next t ∧
      step (busyElsewhere [readyCycle]) = .next t' ∧ (busy [readyCycle]).enc.work ≠ (busyElsewhere [readyCycle]).enc.work) ∧
    (∃ t t', SameButWork { State.reset with inputs := [presentEncode 150] }
        { State.reset with inputs := [presentEncode 150], enc := { State.reset.enc with work := .done rsp150 } } ∧
      step { State.reset with inputs := [presentEncode 150] } = .next t ∧
      step { State.reset with
        inputs := [presentEncode 150], enc := { State.reset.enc with work := .done rsp150 } } = .next t') :=
  ⟨⟨_, _, ⟨rfl, rfl, rfl, rfl, rfl, rfl, rfl, rfl, rfl⟩, rfl, rfl, by decide⟩,
    ⟨_, _, ⟨rfl, rfl, rfl, rfl, rfl, rfl, rfl, rfl, rfl⟩, rfl, rfl⟩⟩

/-- P3, step 2. -/
theorem witness_ErrorsLeaveNothingBehind :
    ∃ t, (failed [readyCycle]).dec.slot = .full malformed ∧ malformed.status ≠ .ok ∧
      step (failed [readyCycle]) = .next t ∧ (failed [readyCycle]).pins.rst = false ∧
      decRspValid (failed [readyCycle]) = true ∧ (failed [readyCycle]).pins.decRspReady = true :=
  ⟨_, by decide, by decide, rfl, by decide, by decide, by decide⟩

/-! ### Witnesses: around the block -/

/-- The clauses at the ends of the domain. -/
theorem witness_AdapterRejectsOutOfDomainIntegers :
    ((-1 : Int) < 0 ∨ (2 : Int) ^ 64 ≤ -1) ∧ ((2 : Int) ^ 64 < 0 ∨ (2 : Int) ^ 64 ≤ 2 ^ 64) ∧
    ((0 : Int) ≤ 0 ∧ (0 : Int) < 2 ^ 64) ∧ ((0 : Int) ≤ 2 ^ 64 - 1 ∧ (2 : Int) ^ 64 - 1 < 2 ^ 64) := by decide

/-- Fifteen bytes consumed, sixteen, and none. -/
theorem witness_WindowAgreesWithUnboundedDecode :
    refDec (List.replicate 14 0x80 ++ [0x00]) = .ok 0 15 ∧ refDec (List.replicate 15 0x80 ++ [0x00]) = .ok 0 16 ∧
    refDec (List.replicate 16 0x80) = .malformed := by decide

theorem witness_HelperFunctions :
    (0 < 1 ∧ byteLen 1 = 1) ∧ (([0x96, 0x01] : List Byte) ≠ []) ∧
    (([0x96, 0x01] : List Byte)[1]? = some 0x01 ∧ 7 < 8) ∧ 0 + 1 < ([0x96, 0x01] : List Byte).length := by decide

end Sys2Proof.Tests
end

section
/-! PROOF. ENC byte by byte, as the passes of the loop of 40_encode.md R92 meet it. -/

namespace Sys2Proof.Machine

/-! ### The recursion of ENC -/

theorem refEnc_of_lt {v : Nat} (h : v < 128) : refEnc v = [BitVec.ofNat 8 v] := by
  rw [refEnc]
  cases bitLength v <;> simp [encWithin, h]

theorem lt_pow_bitLength (v : Nat) : v < 128 ^ (bitLength v + 1) :=
  calc v < 2 ^ bitLength v := (bitLength_le_iff v _).mp le_rfl
    _ ≤ 128 ^ bitLength v := Nat.pow_le_pow_left (by decide) _
    _ ≤ 128 ^ (bitLength v + 1) := Nat.pow_le_pow_right (by decide) (Nat.le_succ _)

/-- ENC by its recursion on any bound that is large enough. -/
theorem refEnc_eq_encWithin {f v : Nat} (h : v < 128 ^ (f + 1)) : refEnc v = encWithin f v :=
  encWithin_fuel _ _ _ (lt_pow_bitLength v) h

theorem refEnc_of_ge {v : Nat} (h : 128 ≤ v) :
    refEnc v = BitVec.ofNat 8 (0x80 ||| (v &&& 0x7F)) :: refEnc (v >>> 7) := by
  have hv := lt_pow_bitLength v
  rw [refEnc_eq_encWithin (hv.trans (Nat.pow_lt_pow_succ (by decide))), encWithin, if_neg (Nat.not_lt.mpr h),
    refEnc_eq_encWithin ((Nat.shiftRight_le v 7).trans_lt hv)]

theorem refEnc_ne_nil (v : Nat) : refEnc v ≠ [] := by
  rcases Nat.lt_or_ge v 128 with h | h
  · simp [refEnc_of_lt h]
  · simp [refEnc_of_ge h]

/-- After `k` passes that left something, ENC goes on with ENC of what is left. -/
theorem refEnc_drop {v k : Nat} (h : 0 < k → v >>> (7 * k) ≠ 0) : (refEnc v).drop k = refEnc (v >>> (7 * k)) := by
  induction k generalizing v with
  | zero => rfl
  | succ k ih =>
    have hs : v >>> (7 * (k + 1)) = (v >>> 7) >>> (7 * k) := by rw [← Nat.shiftRight_add]; congr 1; omega
    have hne := h k.succ_pos
    rw [hs] at hne ⊢
    have hv : 128 ≤ v := by
      by_contra hlt
      rw [Nat.shiftRight_eq_div_pow v, Nat.div_eq_of_lt (by omega)] at hne
      exact hne (Nat.zero_shiftRight _)
    rw [refEnc_of_ge hv, List.drop_succ_cons, ih fun _ => hne]

theorem refEnc_length_gt {v k : Nat} (h : 0 < k → v >>> (7 * k) ≠ 0) : k < (refEnc v).length := by
  rw [← not_le, ← List.drop_eq_nil_iff, refEnc_drop h]
  exact refEnc_ne_nil _

/-! ### The byte a pass writes -/

theorem shift_eq_zero_iff (x : Value) : x >>> 7 = 0 ↔ x.toNat < 128 := by
  rw [← BitVec.toNat_inj, BitVec.toNat_ushiftRight, Nat.shiftRight_eq_div_pow]
  exact Nat.div_eq_zero_iff_lt (by decide)

theorem group_toNat (x : Value) : (x.extractLsb' 0 7).toNat = x.toNat % 128 := by simp

theorem refEnc_of_shift_eq_zero {x : Value} (h : x >>> 7 = 0) :
    refEnc x.toNat = [finalByte (x.extractLsb' 0 7)] := by
  have hx := (shift_eq_zero_iff x).mp h
  rw [refEnc_of_lt hx]
  congr 1
  apply BitVec.eq_of_toNat_eq
  rw [finalByte_toNat, group_toNat, BitVec.toNat_ofNat]
  omega

theorem refEnc_of_shift_ne_zero {x : Value} (h : x >>> 7 ≠ 0) :
    refEnc x.toNat = contByte (x.extractLsb' 0 7) :: refEnc (x >>> 7).toNat := by
  have hx : 128 ≤ x.toNat := not_lt.mp (mt (shift_eq_zero_iff x).mpr h)
  rw [refEnc_of_ge hx, BitVec.toNat_ushiftRight]
  congr 1
  apply BitVec.eq_of_toNat_eq
  have hmod : x.toNat % 128 < 2 ^ 7 := Nat.mod_lt _ (by decide)
  have hor : 128 + x.toNat % 128 = 0x80 ||| x.toNat % 128 := Nat.two_pow_add_eq_or_of_lt hmod 1
  have hand : x.toNat &&& 0x7F = x.toNat % 128 := Nat.and_two_pow_sub_one_eq_mod x.toNat 7
  rw [contByte_toNat, group_toNat, BitVec.toNat_ofNat, hand, ← hor]
  omega

/-! ### ENC_OUT -/

theorem encOut_ext {x y : EncOut} (h : ∀ j < 10, byteAt x j = byteAt y j) : x = y := by
  apply BitVec.eq_of_getLsbD_eq
  intro i hi
  have hj := congrArg (BitVec.getLsbD · (i % 8)) (h (i / 8) (by omega))
  simpa only [byteAt_getLsbD _ _ _ (Nat.mod_lt i (by decide : 0 < 8)), Nat.div_add_mod] using hj

/-- Writing the byte after the bytes that ENC_OUT holds appends it to them. -/
theorem setByte_ofNat_bytesToNat (s : List Byte) (b : Byte) :
    setByte (BitVec.ofNat 80 (bytesToNat s)) s.length b = BitVec.ofNat 80 (bytesToNat (s ++ [b])) := by
  refine encOut_ext fun j hj => ?_
  rw [byteAt_setByte _ _ _ _ hj, byteAt_ofNat_bytesToNat _ _ (by omega), byteAt_ofNat_bytesToNat _ _ (by omega)]
  rcases Nat.lt_trichotomy j s.length with hlt | rfl | hgt
  · rw [if_neg hlt.ne, List.getElem?_append_left hlt]
  · simp
  · rw [if_neg hgt.ne', List.getElem?_eq_none hgt.le, List.getElem?_eq_none (by simpa using hgt)]

theorem memWrite_of_lt {out : EncOut} {k : Nat} {b : Byte} (h : k < 10) : memWrite out k b = .ok (setByte out k b) :=
  if_pos h

end Sys2Proof.Machine
end

section
/-! PROOF. The passes of the two loops keep the working registers consistent with the slot (10_state.md R32). -/

namespace Sys2Proof.Machine

/-! ### ENCODE -/

/-- A pass inside ENC_OUT: a continuation byte while something is left, then the final byte and the response. -/
theorem encPass_of_lt {v rem : Value} {k : Nat} {out : EncOut} (h : k < 10) :
    encPass v rem k out = .ok (
      if rem >>> 7 ≠ 0 then .looping v (rem >>> 7) (k + 1) (setByte out k (contByte (rem.extractLsb' 0 7)))
      else .done { status := .ok, len := BitVec.ofNat 4 (k + 1),
                   bytes := setByte out k (finalByte (rem.extractLsb' 0 7)) }) := by
  simp only [encPass, memWrite_of_lt h]
  split <;> rfl

/-- The pass of the encoder's loop keeps its registers on the way to the slot's response. -/
theorem encConsistent_pass {u : EncUnit} {w : EncWork} (hc : encConsistent u) (hw : encWorkNext u.work = .ok w) :
    encConsistent { u with work := w } := by
  obtain ⟨slot, wait, draws, work⟩ := u
  cases work with
  | idle => cases hw; exact hc
  | done r => cases hw; exact hc
  | looping v rem k out =>
    obtain ⟨hk, rfl, hrem, rfl, hslot⟩ := hc
    have hne : 0 < k → v.toNat >>> (7 * k) ≠ 0 := fun h0 h => hrem h0 (BitVec.eq_of_toNat_eq (by simpa using h))
    have hlen := refEnc_length_gt hne
    have htake : ((refEnc v.toNat).take k).length = k := List.length_take_of_le hlen.le
    have hdrop : (refEnc v.toNat).drop k = refEnc (v >>> (7 * k)).toNat := by
      rw [refEnc_drop hne, BitVec.toNat_ushiftRight]
    have hbyte := setByte_ofNat_bytesToNat ((refEnc v.toNat).take k)
    rw [htake] at hbyte
    rw [encWorkNext, encPass_of_lt hk, hbyte, hbyte] at hw
    split at hw
    case isTrue h =>
      cases hw
      rw [refEnc_of_shift_ne_zero h] at hdrop
      rw [← BitVec.shiftRight_add] at h ⊢
      refine ⟨?_, rfl, fun _ => h, ?_, hslot⟩
      · exact not_le.mp fun (hge : 10 ≤ k + 1) => h (BitVec.ushiftRight_eq_zero (by omega))
      · rw [List.take_add, hdrop]; rfl
    case isFalse h =>
      cases hw
      rw [refEnc_of_shift_eq_zero (not_not.mp h)] at hdrop
      have henc : (refEnc v.toNat).take k ++ [finalByte ((v >>> (7 * k)).extractLsb' 0 7)] = refEnc v.toNat := by
        rw [← hdrop, List.take_append_drop]
      have hlen' : (refEnc v.toNat).length = k + 1 := by rw [← henc]; simp [htake]
      rw [henc, ← hlen']
      exact hslot

/-! ### DECODE -/

theorem memRead_of_lt {buf : DecIn} {i : Nat} (h : i < 15) : memRead buf i = .ok (byteAt buf i) := if_pos h

/-- Placing the group of the byte after a sequence at its weight gives the value of the longer sequence. -/
theorem addGroup_valueOf (s : List Byte) (b : Byte) :
    addGroup (valueOf s) (dataBits b) s.length = valueOf (s ++ [b]) := by
  have hor := Nat.two_pow_add_eq_or_of_lt (valueOf_lt s) (b.toNat % 128)
  rw [addGroup, dataBits_toNat, Nat.shiftLeft_eq, Nat.lor_comm, Nat.mul_comm, ← hor, valueOf_append, valueOf_cons]
  simp [Nat.add_comm]

theorem provided_take_succ {buf : DecIn} {n : Len} {i : Nat} (h : i < n.toNat) :
    (provided buf n).take (i + 1) = (provided buf n).take i ++ [byteAt buf i] := by
  rw [List.take_add_one, provided_getElem?, if_pos h]; rfl

theorem decodeRsp_of_unterminated {buf : DecIn} {n : Len} (h : ∀ b ∈ provided buf n, contBit b = true) :
    decodeRsp buf n = raiseError .malformedEncoding := by
  rw [decodeRsp, refDec, terminator_eq_none_iff.mpr h]

theorem decodeRsp_of_terminator {buf : DecIn} {n : Len} {t : Nat} (h : terminator (provided buf n) = some t) :
    decodeRsp buf n = finishDecode (valueOf ((provided buf n).take (t + 1))) (t + 1) := by
  rw [decodeRsp, refDec, h]

/-- The pass of the decoder's loop keeps its registers on the way to the slot's response. -/
theorem decConsistent_pass {u : DecUnit} {w : DecWork} (hc : decConsistent u) (hw : decWorkNext u.work = .ok w) :
    decConsistent { u with work := w } := by
  obtain ⟨slot, wait, draws, work⟩ := u
  cases work with
  | idle => cases hw; exact hc
  | done r => cases hw; exact hc
  | looping buf n acc i =>
    obtain ⟨hi, hcont, rfl, hslot⟩ := hc
    rw [decWorkNext] at hw
    split at hw
    case isTrue hn =>
      cases hw
      rw [hn, List.take_of_length_le (provided_length buf n).le] at hcont
      rw [decodeRsp_of_unterminated hcont] at hslot
      exact hslot
    case isFalse hn =>
      have hlt : i < n.toNat := lt_of_le_of_ne hi hn
      have hlen : ((provided buf n).take i).length = i := by rw [List.length_take, provided_length, min_eq_left hi]
      have hadd := addGroup_valueOf ((provided buf n).take i) (byteAt buf i)
      rw [hlen, ← provided_take_succ hlt] at hadd
      rw [memRead_of_lt (hlt.trans_le (Nat.le_of_lt_succ n.isLt))] at hw
      cases hb : contBit (byteAt buf i)
      · have ht : terminator (provided buf n) = some i :=
          terminator_eq_some_iff.mpr ⟨⟨_, by rw [provided_getElem?, if_pos hlt], hb⟩, hcont⟩
        simp only [hb, hadd, ← decodeRsp_of_terminator ht] at hw
        cases hw
        exact hslot
      · simp only [hb, hadd] at hw
        cases hw
        refine ⟨hlt, ?_, rfl, hslot⟩
        rw [provided_take_succ hlt]
        simpa [or_imp, forall_and, hb] using hcont

end Sys2Proof.Machine
end

section
/-! PROOF. What one edge can do to a unit and its record, said once for both units (10_state.md R23), and the invariant of
a run. -/

namespace Sys2Proof.Machine

/-! ### One edge of a unit -/

/-- What an edge with `rst` at 0 does to a unit and its record (latest first), for a unit that answers `q` with `f q` and
starts its loop at `start q`, `w` being its working registers after the pass: it accepts a request, delivers its
response, or does neither. -/
inductive UnitEdge {ρ α ω : Type} (f : ρ → α) (start : ρ → ω) (w : ω) (u : UnitState α ω) (log : List (Event ρ α)) :
    UnitState α ω → List (Event ρ α) → Prop where
  | accept (q : ρ) (n : Nat) : u.slot = .empty → UnitEdge f start w u log (u.accept n (f q) (start q)) (.req q :: log)
  | deliver (r : α) : u.slot = .full r → UnitEdge f start w u log { u with slot := .empty, work := w } (.rsp r :: log)
  | hold (n : Nat) : UnitEdge f start w u log { u with wait := n, work := w } log

/-- The start of the decoder's loop as a function of the request. -/
def startDecodeReq (q : DecReq) : DecWork := startDecode q.buf q.len

theorem encNext_unitEdge (p : Pins) (w : EncWork) (u : EncUnit) (log : List (Event Value EncRsp)) :
    UnitEdge encodeRsp startEncode w u log (encNext p w u log).1 (encNext p w u log).2 := by
  rw [encNext]
  split
  case h_1 hslot =>
    split
    · exact .accept _ _ hslot
    · exact .hold u.wait
  case h_2 r hslot =>
    split
    · exact .deliver r hslot
    · exact .hold _

theorem decNext_unitEdge (p : Pins) (w : DecWork) (u : DecUnit) (log : List (Event DecReq DecRsp)) :
    UnitEdge decodeReq startDecodeReq w u log (decNext p w u log).1 (decNext p w u log).2 := by
  rw [decNext]
  split
  case h_1 hslot =>
    split
    · exact .accept (DecReq.mk p.decReqLen p.decReqBuf) _ hslot
    · exact .hold u.wait
  case h_2 r hslot =>
    split
    · exact .deliver r hslot
    · exact .hold _

/-! ### The record -/

section record
variable {ρ α ω : Type} [DecidableEq α] {f : ρ → α} {log log' : List (Event ρ α)}

theorem replay_req (q : ρ) (h : replay f log = some .empty) : replay f (.req q :: log) = some (.full (f q)) := by
  simp [replay, h]

theorem replay_rsp {r : α} (h : replay f log = some (.full r)) : replay f (.rsp r :: log) = some .empty := by
  simp [replay, h]

theorem replay_reset {sl : Slot α} (h : replay f log = some sl) : replay f (.reset :: log) = some .empty := by
  simp [replay, h]

/-- An edge keeps the record a run of the relation of R23 that ends in the unit's slot. -/
theorem UnitEdge.replay_slot {start : ρ → ω} {w : ω} {u u' : UnitState α ω} (h : UnitEdge f start w u log u' log')
    (hr : replay f log = some u.slot) : replay f log' = some u'.slot := by
  cases h with
  | accept q n hslot => exact replay_req q (hslot ▸ hr)
  | deliver r hslot => exact replay_rsp (hslot ▸ hr)
  | hold n => exact hr

end record

/-! ### The working registers -/

theorem encConsistent_start {u : EncUnit} {v : Value} (n : Nat) :
    encConsistent (u.accept n (encodeRsp v) (startEncode v)) :=
  ⟨by decide, by simp, fun h => absurd h (by decide), rfl, .inr rfl⟩

theorem decConsistent_start {u : DecUnit} {q : DecReq} (n : Nat) :
    decConsistent (u.accept n (decodeReq q) (startDecodeReq q)) :=
  ⟨Nat.zero_le _, by simp, rfl, .inr rfl⟩

/-- Registers that are consistent with a slot are consistent with an EMPTY one. -/
theorem encConsistent_deliver {u : EncUnit} (h : encConsistent u) : encConsistent u.deliver := by
  obtain ⟨slot, wait, draws, work⟩ := u
  cases work with
  | idle => rfl
  | done r => exact .inl rfl
  | looping v rem k out =>
    obtain ⟨hk, hrem, hne, hout, -⟩ := h
    exact ⟨hk, hrem, hne, hout, .inl rfl⟩

theorem decConsistent_deliver {u : DecUnit} (h : decConsistent u) : decConsistent u.deliver := by
  obtain ⟨slot, wait, draws, work⟩ := u
  cases work with
  | idle => rfl
  | done r => exact .inl rfl
  | looping buf n acc i =>
    obtain ⟨hi, hcont, hacc, -⟩ := h
    exact ⟨hi, hcont, hacc, .inl rfl⟩

theorem UnitEdge.keeps_encConsistent {w : EncWork} {u u' : EncUnit} {log log' : List (Event Value EncRsp)}
    (h : UnitEdge encodeRsp startEncode w u log u' log') (hc : encConsistent u) (hw : encWorkNext u.work = .ok w) :
    encConsistent u' := by
  cases h with
  | accept q n _ => exact encConsistent_start n
  | deliver r _ => exact encConsistent_deliver (encConsistent_pass hc hw)
  | hold n => exact encConsistent_pass hc hw

theorem UnitEdge.keeps_decConsistent {w : DecWork} {u u' : DecUnit} {log log' : List (Event DecReq DecRsp)}
    (h : UnitEdge decodeReq startDecodeReq w u log u' log') (hc : decConsistent u) (hw : decWorkNext u.work = .ok w) :
    decConsistent u' := by
  cases h with
  | accept q n _ => exact decConsistent_start n
  | deliver r _ => exact decConsistent_deliver (decConsistent_pass hc hw)
  | hold n => exact decConsistent_pass hc hw

/-! ### The invariant -/

/-- Settles O50: both records are empty, both slots EMPTY and both loops idle. -/
theorem runInvariantHoldsAtReset : Obligations.RunInvariantHoldsAtReset := ⟨rfl, rfl, rfl, rfl⟩

/-- RESET keeps the invariant: each record goes on with a reset, which ends in an EMPTY slot, and the loops are idle. -/
theorem inv_resetUnits {s : State} (h : Inv s) : Inv (resetUnits s.nextCycle) := by
  obtain ⟨henc, hdec, -, -⟩ := h
  exact ⟨replay_reset henc, replay_reset hdec, rfl, rfl⟩

/-- Settles O51: RESET keeps the invariant, and so does the edge of each unit, for the record by `UnitEdge.replay_slot` and
for the loop by its pass. -/
theorem everyStepKeepsTheRunInvariant : Obligations.EveryStepKeepsTheRunInvariant := by
  intro s t hinv hstep
  rcases step_cases hstep with ⟨-, rfl⟩ | ⟨-, we, wd, hwe, hwd, rfl⟩
  · exact inv_resetUnits hinv
  · obtain ⟨henc, hdec, hce, hcd⟩ := hinv
    have ee := encNext_unitEdge s.pins we s.enc s.encLog
    have ed := decNext_unitEdge s.pins wd s.dec s.decLog
    exact ⟨ee.replay_slot henc, ed.replay_slot hdec, ee.keeps_encConsistent hce hwe, ed.keeps_decConsistent hcd hwd⟩

end Sys2Proof.Machine
end

section
/-! PROOF. Neither unit depends on the other (10_state.md R20), and the working registers are never visible (R32). -/

namespace Sys2Proof.Machine

/-! ### The edge of one unit, on its own -/

/-- The encoder and its record after an edge: RESET with `rst` at 1, and otherwise a pass of the loop and `encNext`. -/
def encEdge (p : Pins) (u : EncUnit) (log : List (Event Value EncRsp)) :
    Except Fault (EncUnit × List (Event Value EncRsp)) :=
  if p.rst then .ok (u.clear .idle, .reset :: log) else (encWorkNext u.work).map fun w => encNext p w u log

/-- The decoder and its record after an edge. -/
def decEdge (p : Pins) (u : DecUnit) (log : List (Event DecReq DecRsp)) :
    Except Fault (DecUnit × List (Event DecReq DecRsp)) :=
  if p.rst then .ok (u.clear .idle, .reset :: log) else (decWorkNext u.work).map fun w => decNext p w u log

/-- A step that answers a next state is the edge of each unit, and uses up the cycle's inputs. -/
theorem step_edges {s t : State} (h : step s = .next t) :
    encEdge s.pins s.enc s.encLog = .ok (t.enc, t.encLog) ∧ decEdge s.pins s.dec s.decLog = .ok (t.dec, t.decLog) ∧
    t.inputs = s.inputs.tail := by
  rcases step_cases h with ⟨hr, rfl⟩ | ⟨hr, we, wd, hwe, hwd, rfl⟩
  · simp [encEdge, decEdge, hr]
  · simp [encEdge, decEdge, hr, hwe, hwd, Except.map]

/-! ### Each unit reads its own side of the ports -/

theorem encEdge_congr_encSide {p p' : Pins} (h : p.encSide = p'.encSide) : encEdge p = encEdge p' := by
  simp only [Pins.encSide, Prod.mk.injEq] at h
  obtain ⟨hrst, hvalid, hvalue, hready⟩ := h
  funext u log
  simp only [encEdge, encNext, hrst, hvalid, hvalue, hready]

theorem decEdge_congr_decSide {p p' : Pins} (h : p.decSide = p'.decSide) : decEdge p = decEdge p' := by
  simp only [Pins.decSide, Prod.mk.injEq] at h
  obtain ⟨hrst, hvalid, hbuf, hlen, hready⟩ := h
  funext u log
  simp only [decEdge, decNext, hrst, hvalid, hbuf, hlen, hready]

/-- Settles O55: the edge of a unit is a function of the unit, its record and its own side of the ports. -/
theorem unitsAreIndependent : Obligations.UnitsAreIndependent := by
  intro s s' t t' ht ht'
  obtain ⟨henc, hdec, -⟩ := step_edges ht
  obtain ⟨henc', hdec', -⟩ := step_edges ht'
  constructor
  · intro hu hlog hside
    rw [← hu, ← hlog, ← encEdge_congr_encSide hside, henc] at henc'
    simpa using henc'
  · intro hu hlog hside
    rw [← hu, ← hlog, ← decEdge_congr_decSide hside, hdec] at hdec'
    simpa using hdec'

/-! ### What a unit shows -/

/-- All of a unit but its working registers. -/
def UnitState.visible {α ω : Type} (u : UnitState α ω) : Slot α × Nat × Nat := (u.slot, u.wait, u.draws)

theorem sameButWork_iff (s t : State) : SameButWork s t ↔
    s.enc.visible = t.enc.visible ∧ s.dec.visible = t.dec.visible ∧
    s.inputs = t.inputs ∧ s.encLog = t.encLog ∧ s.decLog = t.decLog := by
  simp only [SameButWork, UnitState.visible, Prod.mk.injEq, and_assoc]

/-- What the encoder shows after an edge, and its record, do not depend on its working registers. -/
theorem encNext_visible {u u' : EncUnit} (h : u.visible = u'.visible) (p : Pins) (w w' : EncWork)
    (log : List (Event Value EncRsp)) :
    (encNext p w u log).1.visible = (encNext p w' u' log).1.visible ∧
    (encNext p w u log).2 = (encNext p w' u' log).2 := by
  obtain ⟨slot, wait, draws, work⟩ := u
  obtain ⟨slot', wait', draws', work'⟩ := u'
  cases h
  cases slot <;> simp only [encNext] <;> split <;> exact ⟨rfl, rfl⟩

theorem decNext_visible {u u' : DecUnit} (h : u.visible = u'.visible) (p : Pins) (w w' : DecWork)
    (log : List (Event DecReq DecRsp)) :
    (decNext p w u log).1.visible = (decNext p w' u' log).1.visible ∧
    (decNext p w u log).2 = (decNext p w' u' log).2 := by
  obtain ⟨slot, wait, draws, work⟩ := u
  obtain ⟨slot', wait', draws', work'⟩ := u'
  cases h
  cases slot <;> simp only [decNext] <;> split <;> exact ⟨rfl, rfl⟩

theorem clear_visible {α ω : Type} {u u' : UnitState α ω} (h : u.visible = u'.visible) (w w' : ω) :
    (u.clear w).visible = (u'.clear w').visible := by
  have hdraws : u.draws = u'.draws := congrArg (·.2.2) h
  simp [UnitState.visible, hdraws]

theorem State.pins_congr {s s' : State} (h : s.inputs = s'.inputs) : s.pins = s'.pins :=
  congrArg (List.headD · Pins.quiet) h

theorem sameButWork_step {s s' t t' : State} (h : SameButWork s s') (ht : step s = .next t) (ht' : step s' = .next t') :
    SameButWork t t' := by
  rw [sameButWork_iff] at h ⊢
  obtain ⟨henc, hdec, hin, helog, hdlog⟩ := h
  have hpins := State.pins_congr hin
  have htail := congrArg List.tail hin
  rcases step_cases ht with ⟨hr, rfl⟩ | ⟨hr, we, wd, -, -, rfl⟩ <;>
    rcases step_cases ht' with ⟨hr', rfl⟩ | ⟨hr', we', wd', -, -, rfl⟩
  · exact ⟨clear_visible henc _ _, clear_visible hdec _ _, htail, by simp [helog], by simp [hdlog]⟩
  · simp [hpins, hr'] at hr
  · simp [hpins, hr'] at hr
  · obtain ⟨heu, hel⟩ := encNext_visible henc s.pins we we' s.encLog
    obtain ⟨hdu, hdl⟩ := decNext_visible hdec s.pins wd wd' s.decLog
    rw [hpins, helog] at heu hel
    rw [hpins, hdlog] at hdu hdl
    rw [hpins, helog, hdlog]
    exact ⟨heu, hdu, htail, hel, hdl⟩

theorem sameButWork_outputs {s s' : State} (h : SameButWork s s') :
    encReqReady s = encReqReady s' ∧ decReqReady s = decReqReady s' ∧
    encRspPayload s = encRspPayload s' ∧ decRspPayload s = decRspPayload s' := by
  obtain ⟨hes, hew, -, hds, hdw, -, hin, -, -⟩ := h
  have hpins := State.pins_congr hin
  have hve : encRspValid s = encRspValid s' := by rw [encRspValid, encRspValid, hes, hew, hpins]
  have hvd : decRspValid s = decRspValid s' := by rw [decRspValid, decRspValid, hds, hdw, hpins]
  refine ⟨?_, ?_, ?_, ?_⟩
  · rw [encReqReady, encReqReady, hes, hpins]
  · rw [decReqReady, decReqReady, hds, hpins]
  · rw [encRspPayload, encRspPayload, hes, hve]
  · rw [decRspPayload, decRspPayload, hds, hvd]

/-- Settles O56: the outputs, and what an edge makes of what a unit shows, do not read the working registers. -/
theorem workingRegistersAreInvisible : Obligations.WorkingRegistersAreInvisible :=
  fun _ _ _ _ h ht ht' => ⟨sameButWork_step h ht ht', sameButWork_outputs h⟩

end Sys2Proof.Machine
end

section
/-! PROOF. Reset, the acceptance of a request, and the instructions that a step runs (10_state.md R21, R23, R34). -/

namespace Sys2Proof.Machine

/-- Settles O1: the fields of `State.reset` as they stand. -/
theorem resetLeavesSlotsEmptyAndUnitsReady : Obligations.ResetLeavesSlotsEmptyAndUnitsReady :=
  ⟨rfl, rfl, rfl, rfl, rfl, rfl, rfl, rfl, rfl⟩

/-! ### Acceptance -/

/-- Settles O3: the EMPTY branch of ENCODE. -/
theorem encodeAcceptedFillsTheSlot : Obligations.EncodeAcceptedFillsTheSlot := by
  intro v s h
  rw [exec, execEncode, h]
  rfl

/-- Settles O17: the EMPTY branch of DECODE. -/
theorem decodeAcceptedFillsTheSlot : Obligations.DecodeAcceptedFillsTheSlot := by
  intro n buf s h
  rw [exec, execDecode, h]
  rfl

/-- A response that is taken leaves the decoder's slot EMPTY, whatever the response. -/
theorem dec_slot_of_taken {s t : State} (hstep : step s = .next t) (hr : s.pins.rst = false)
    (hvalid : decRspValid s = true) (hready : s.pins.decRspReady = true) : t.dec.slot = .empty := by
  simp only [decRspValid, Bool.and_eq_true, beq_iff_eq] at hvalid
  obtain ⟨⟨hfull, hwait⟩, -⟩ := hvalid
  rcases step_cases hstep with ⟨hr', -⟩ | ⟨-, we, wd, -, -, rfl⟩
  · rw [hr] at hr'; cases hr'
  · cases hslot : s.dec.slot with
    | empty => rw [hslot] at hfull; cases hfull
    | full r => simp only [decNext, hslot, hwait, hready, and_self, if_true]

/-- Settles O57: the step that takes the error empties the slot, and an EMPTY slot accepts any request. -/
theorem errorsLeaveNothingBehind : Obligations.ErrorsLeaveNothingBehind := by
  intro s t r n buf _ _ hstep hr hvalid hready
  exact ⟨_, decodeAcceptedFillsTheSlot n buf t (dec_slot_of_taken hstep hr hvalid hready), rfl⟩

/-! ### The bytes of a payload -/

theorem toBytes_length (p : Packet) : p.toBytes.length = p.channel.byteCount := by
  cases p with
  | encReq w => exact natToBytes_length 8 _
  | decReq w => exact natToBytes_length 16 _
  | wireByte b => rfl

theorem bytesToNat_toBytes (p : Packet) : bytesToNat p.toBytes = p.toNat := by
  cases p with
  | encReq w => exact bytesToNat_natToBytes 8 _ w.isLt
  | decReq w => exact bytesToNat_natToBytes 16 _ (w.isLt.trans (by decide))
  | wireByte b => rfl

theorem packetOfBytes_toBytes (p : Packet) : packetOfBytes p.channel p.toBytes = .ok p := by
  rw [packetOfBytes.eq_def, if_pos (toBytes_length p), bytesToNat_toBytes]
  cases p with
  | encReq w => simp [Packet.channel, Packet.toNat]
  | decReq w => simp [Packet.channel, Packet.toNat, w.isLt]
  | wireByte b => simp [Packet.channel, Packet.toNat]

/-- The bytes of a payload decode to the instruction that the payload is. -/
theorem decode_toBytes (p : Packet) : decode p.channel p.toBytes = .ok (decodePacket p) := by
  rw [decode, packetOfBytes_toBytes]

/-- Whatever the bytes of a payload decode to is the instruction that the payload is. -/
theorem eq_decodePacket_of_decode {p : Packet} {i : Instr} (h : decode p.channel p.toBytes = .ok i) :
    i = decodePacket p :=
  Except.ok.inj (h.symm.trans (decode_toBytes p))

/-! ### The step -/

theorem runFetched_encFetch_eq_exec (p : Pins) : runFetched p.encFetch =
    fun s => if p.encReqValid then exec (decodePacket (.encReq p.encReqValue)) s else .next s := by
  funext s
  rw [Pins.encFetch]
  cases p.encReqValid <;> rfl

theorem runFetched_decFetch_eq_exec (p : Pins) : runFetched p.decFetch =
    fun s => if p.decReqValid then exec (decodePacket (.decReq (p.decReqLen ++ p.decReqBuf))) s else .next s := by
  funext s
  rw [Pins.decFetch]
  cases p.decReqValid <;> rfl

/-- Settles O44: what the bytes of a payload decode to is what the edge runs, and a byte at an index below n is inside
DEC_IN. -/
theorem stepRunsTheDecodedInstructions : Obligations.StepRunsTheDecodedInstructions := by
  constructor
  · intro s i j hr hi hj
    obtain rfl := eq_decodePacket_of_decode (p := .encReq s.pins.encReqValue) hi
    obtain rfl := eq_decodePacket_of_decode (p := .decReq (s.pins.decReqLen ++ s.pins.decReqBuf)) hj
    rw [step, clockEdge, hr, runFetched_encFetch_eq_exec, runFetched_decFetch_eq_exec]
    rfl
  · intro s buf n acc k i hwork hk hi
    obtain rfl := eq_decodePacket_of_decode (p := .wireByte (byteAt buf k)) hi
    rw [runDecLoop, hwork]
    simp only [if_neg hk.ne, memRead_of_lt (hk.trans_le (Nat.le_of_lt_succ n.isLt))]

end Sys2Proof.Machine
end

section
/-! PROOF. The bytes of ENC_OUT and DEC_IN (20_memory.md R45, R55): where a bit of a Value stands, and DECODE of the
window of a longer sequence. -/

namespace Sys2Proof.Machine

/-! ### The bits of an encoding -/

theorem testBit_of_lt_128 {v j : Nat} (hv : v < 128) (hj : 7 ≤ j) : v.testBit j = false :=
  Nat.testBit_lt_two_pow (hv.trans_le (Nat.pow_le_pow_right (n := 2) (by decide) hj))

/-- The data bits of a continuation byte of ENC are the low bits of the number. -/
theorem testBit_or_group {v i : Nat} (hi : i < 7) : (0x80 ||| (v &&& 0x7F)).testBit i = v.testBit i := by
  have h80 : Nat.testBit 0x80 i = false := Nat.testBit_two_pow_of_ne (n := 7) hi.ne'
  have h7F : Nat.testBit 0x7F i = true := by rw [Nat.testBit_two_pow_sub_one 7 i, decide_eq_true hi]
  rw [Nat.testBit_or, Nat.testBit_and, h80, h7F, Bool.false_or, Bool.and_true]

/-- Data bit `i` of byte `k` of ENC(v) is bit `7k + i` of `v`, and zero after the end of the encoding. -/
theorem refEnc_getLsbD (v k i : Nat) (hi : i < 7) :
    ((refEnc v)[k]?.getD 0).getLsbD i = v.testBit (7 * k + i) := by
  have hbyte (x : Nat) : (BitVec.ofNat 8 x).getLsbD i = x.testBit i := by
    rw [BitVec.getLsbD_ofNat, decide_eq_true (by omega), Bool.true_and]
  induction k generalizing v with
  | zero =>
    rw [Nat.mul_zero, Nat.zero_add]
    rcases Nat.lt_or_ge v 128 with hv | hv
    · rw [refEnc_of_lt hv, List.getElem?_cons_zero, Option.getD_some, hbyte]
    · rw [refEnc_of_ge hv, List.getElem?_cons_zero, Option.getD_some, hbyte, testBit_or_group hi]
  | succ k ih =>
    rcases Nat.lt_or_ge v 128 with hv | hv
    · rw [testBit_of_lt_128 hv (by omega)]
      simp [refEnc_of_lt hv]
    · rw [refEnc_of_ge hv, List.getElem?_cons_succ, ih, Nat.testBit_shiftRight]
      congr 1
      omega

/-- ENC_OUT of the response holds the bytes of ENC, and zeros after them. -/
theorem byteAt_encodeRsp_bytes (v : Value) {k : Nat} (hk : k < 10) :
    byteAt (encodeRsp v).bytes k = ((refEnc v.toNat)[k]?).getD 0 :=
  byteAt_ofNat_bytesToNat _ _ (by omega)

/-- Settles O14: byte `j / 7` of ENC_OUT is that byte of ENC, whose data bits are the Value's. -/
theorem valueBitLivesInByteOfItsGroup : Obligations.ValueBitLivesInByteOfItsGroup := by
  intro v j hj
  rw [byteAt_encodeRsp_bytes v (by omega), refEnc_getLsbD _ _ _ (Nat.mod_lt j (by decide)), Nat.div_add_mod]
  rfl

/-! ### The window of a sequence -/

/-- A request that presents a sequence provides exactly that sequence. -/
theorem provided_requestOf {s : List Byte} (hs : s.length ≤ 15) :
    provided (requestOf s).buf (requestOf s).len = s := by
  have hlen : (requestOf s).len.toNat = s.length := Nat.mod_eq_of_lt (Nat.lt_succ_of_le hs)
  apply List.ext_getElem?
  intro i
  rw [provided_getElem?, hlen]
  split
  case isTrue hi =>
    rw [requestOf, byteAt_ofNat_bytesToNat _ _ (by omega), List.getElem?_eq_getElem hi, Option.getD_some]
  case isFalse hi => rw [List.getElem?_eq_none (not_lt.mp hi)]

theorem provided_windowOf (s : List Byte) : provided (windowOf s).buf (windowOf s).len = s.take 15 :=
  provided_requestOf (List.length_take_le 15 s)

theorem refDec_eq_ok_iff {s : List Byte} {x c : Nat} :
    refDec s = .ok x c ↔ ∃ t, terminator s = some t ∧ valueOf (s.take (t + 1)) = x ∧ t + 1 = c := by
  rw [refDec]
  cases terminator s <;> simp

theorem refDec_eq_malformed_iff {s : List Byte} : refDec s = .malformed ↔ terminator s = none := by
  rw [refDec]
  cases terminator s <;> simp

/-- A terminator among the first `n` bytes is the terminator of those bytes. -/
theorem terminator_take_of_lt {s : List Byte} {t n : Nat} (h : terminator s = some t) (ht : t < n) :
    terminator (s.take n) = some t := by
  rw [terminator_eq_some_iff] at h ⊢
  rwa [List.getElem?_take_of_lt ht, List.take_take, min_eq_left ht.le]

/-- The first `n` bytes are unterminated when the terminator comes after them. -/
theorem terminator_take_of_le {s : List Byte} {t n : Nat} (h : terminator s = some t) (ht : n ≤ t) :
    terminator (s.take n) = none := by
  obtain ⟨-, hcont⟩ := terminator_eq_some_iff.mp h
  exact terminator_eq_none_iff.mpr fun b hb => hcont b (List.take_subset_take_left s ht hb)

theorem terminator_take_of_none {s : List Byte} (n : Nat) (h : terminator s = none) : terminator (s.take n) = none :=
  terminator_eq_none_iff.mpr fun b hb => terminator_eq_none_iff.mp h b (List.mem_of_mem_take hb)

theorem decodeRsp_windowOf_of_unterminated {s : List Byte} (h : terminator (s.take 15) = none) :
    decodeRsp (windowOf s).buf (windowOf s).len = raiseError .malformedEncoding :=
  decodeRsp_of_unterminated (terminator_eq_none_iff.mp ((provided_windowOf s).symm ▸ h))

/-- Settles O59: the terminator is in the window exactly when DEC consumes 15 bytes or fewer. -/
theorem windowAgreesWithUnboundedDecode : Obligations.WindowAgreesWithUnboundedDecode := by
  intro s
  refine ⟨fun x c h hc => ?_, fun x c h hc => ?_, fun h => ?_⟩
  · obtain ⟨t, ht, rfl, rfl⟩ := refDec_eq_ok_iff.mp h
    have hwin : terminator (provided (windowOf s).buf (windowOf s).len) = some t := by
      rw [provided_windowOf, terminator_take_of_lt ht hc]
    rw [decodeRsp_of_terminator hwin, provided_windowOf, List.take_take, min_eq_left hc]
  · obtain ⟨t, ht, -, rfl⟩ := refDec_eq_ok_iff.mp h
    exact decodeRsp_windowOf_of_unterminated (terminator_take_of_le ht (Nat.le_of_lt_succ hc))
  · exact decodeRsp_windowOf_of_unterminated (terminator_take_of_none 15 (refDec_eq_malformed_iff.mp h))

end Sys2Proof.Machine
end

section
/-! PROOF. What the invariant of a run gives: no step stops (20_memory.md R49), and the responses answer the requests in
order (R50 (b)). -/

namespace Sys2Proof.Machine

/-! ### No access is outside a buffer -/

/-- The index of a consistent ENCODE loop is inside ENC_OUT, so its pass does not stop. -/
theorem encWorkNext_ok {u : EncUnit} (hc : encConsistent u) : ∃ w, encWorkNext u.work = .ok w := by
  obtain ⟨slot, wait, draws, work⟩ := u
  cases work with
  | idle => exact ⟨_, rfl⟩
  | done r => exact ⟨_, rfl⟩
  | looping v rem k out =>
    obtain ⟨hk, -⟩ := hc
    exact ⟨_, encPass_of_lt hk⟩

/-- The index of a consistent DECODE loop is n or inside DEC_IN, so its pass does not stop. -/
theorem decWorkNext_ok {u : DecUnit} (hc : decConsistent u) : ∃ w, decWorkNext u.work = .ok w := by
  obtain ⟨slot, wait, draws, work⟩ := u
  cases work with
  | idle => exact ⟨_, rfl⟩
  | done r => exact ⟨_, rfl⟩
  | looping buf n acc i =>
    obtain ⟨hi, -⟩ := hc
    simp only [decWorkNext]
    split
    case isTrue => exact ⟨_, rfl⟩
    case isFalse hn =>
      have hlt : i < 15 := (lt_of_le_of_ne hi hn).trans_le (Nat.le_of_lt_succ n.isLt)
      rw [memRead_of_lt hlt]
      exact ⟨_, rfl⟩

/-- Settles O52: RESET never stops, and with `rst` at 0 neither loop's pass does. -/
theorem noStepOfARunStops : Obligations.NoStepOfARunStops := by
  rintro s ⟨-, -, henc, hdec⟩
  cases hr : s.pins.rst
  · obtain ⟨we, hwe⟩ := encWorkNext_ok henc
    obtain ⟨wd, hwd⟩ := decWorkNext_ok hdec
    rw [step_of_not_rst hr, hwe, hwd]
    exact ⟨_, rfl⟩
  · exact ⟨_, step_of_rst hr⟩

/-! ### Responses and requests -/

section record
variable {ρ α : Type} [DecidableEq α] {f : ρ → α} {log : List (Event ρ α)} {sl : Slot α}

/-- The last event of a record that is a run of the relation of R23: a request to an EMPTY slot, the response of a FULL
one, or RESET. -/
theorem replay_cons_cases {e : Event ρ α} (h : replay f (e :: log) = some sl) :
    (∃ q, e = .req q ∧ replay f log = some .empty ∧ sl = .full (f q)) ∨
    (∃ r, e = .rsp r ∧ replay f log = some (.full r) ∧ sl = .empty) ∨
    (e = .reset ∧ sl = .empty) := by
  simp only [replay] at h
  split at h
  case h_1 q hlog => exact .inl ⟨q, rfl, hlog, by simpa using h.symm⟩
  case h_2 r r' hlog =>
    split at h
    case isTrue heq => exact .inr (.inl ⟨r', rfl, heq ▸ hlog, by simpa using h.symm⟩)
    case isFalse => cases h
  case h_3 => exact .inr (.inr ⟨rfl, by simpa using h.symm⟩)
  case h_4 => cases h

/-- In a run of the relation of R23 the response owed and those received answer, in order, the requests accepted. -/
theorem owed_append_received (h : replay f log = some sl) :
    sl.toList ++ receivedSince log = (acceptedSince log).map f := by
  induction log generalizing sl with
  | nil =>
    obtain rfl : Slot.empty = sl := by simpa [replay] using h
    rfl
  | cons e log ih =>
    rcases replay_cons_cases h with ⟨q, rfl, hlog, rfl⟩ | ⟨r, rfl, hlog, rfl⟩ | ⟨rfl, rfl⟩
    · exact congrArg (f q :: ·) (ih hlog)
    · exact ih hlog
    · rfl

end record

/-- Settles O54: by the invariant each record is a run of the relation of R23 that ends in the unit's slot. -/
theorem responsesAnswerRequestsInOrder : Obligations.ResponsesAnswerRequestsInOrder := by
  rintro s ⟨henc, hdec, -, -⟩
  exact ⟨owed_append_received henc, owed_append_received hdec⟩

end Sys2Proof.Machine
end

section
/-! PROOF. The decoder and the encoder are inverse to each other (30_encoding.md R60, R68, R70, R73), and the layout of the
response payloads (R69, R71, R72). -/

namespace Sys2Proof.Machine

/-! ### The two byte forms (R60) -/

@[simp] theorem dataBits_contByte (d : Group) : dataBits (contByte d) = d := extract_append_low _ _

@[simp] theorem dataBits_finalByte (d : Group) : dataBits (finalByte d) = d := extract_append_low _ _

@[simp] theorem contBit_contByte (d : Group) : contBit (contByte d) = true := by
  rw [contBit_iff_le, contByte_toNat]
  omega

@[simp] theorem contBit_finalByte (d : Group) : contBit (finalByte d) = false := by
  rw [contBit_eq_false_iff_lt, finalByte_toNat]
  exact d.isLt

theorem contByte_dataBits {b : Byte} (h : contBit b = true) : contByte (dataBits b) = b := by
  have hb := (contBit_iff_le b).mp h
  apply BitVec.eq_of_toNat_eq
  rw [contByte_toNat, dataBits_toNat]
  omega

theorem finalByte_dataBits {b : Byte} (h : contBit b = false) : finalByte (dataBits b) = b := by
  have hb := (contBit_eq_false_iff_lt b).mp h
  apply BitVec.eq_of_toNat_eq
  rw [finalByte_toNat, dataBits_toNat, Nat.mod_eq_of_lt hb]

theorem decodeByte_of_cont {b : Byte} (h : contBit b = true) : decodeByte b = .varintCont (dataBits b) := by
  rw [decodeByte, if_pos h]

theorem decodeByte_of_final {b : Byte} (h : contBit b = false) : decodeByte b = .varintFinal (dataBits b) := by
  rw [decodeByte, h]
  rfl

/-- Settles O37: bit 7 is the continuation bit, which the decoder tests, and the group is the byte modulo 128. -/
theorem everyByteIsOneOfTwoForms : Obligations.EveryByteIsOneOfTwoForms := by
  intro b
  have hgroup : dataBits b = BitVec.ofNat 7 (b.toNat % 128) := by
    apply BitVec.eq_of_toNat_eq
    rw [dataBits_toNat, BitVec.toNat_ofNat, Nat.mod_mod]
  refine ⟨(contBit_iff_le b).symm, ?_, fun h => ?_, fun h => ?_⟩
  · exact Nat.lt_succ_iff.symm.trans (contBit_eq_false_iff_lt b).symm
  · rw [decodeByte_of_cont h, hgroup]
  · rw [decodeByte_of_final h, hgroup, Nat.mod_eq_of_lt ((contBit_eq_false_iff_lt b).mp h)]

/-! ### Instructions and payloads -/

theorem encodePacket_channel (i : Instr) : (encodePacket i).channel = i.channel := by cases i <;> rfl

theorem decodePacket_channel (p : Packet) : (decodePacket p).channel = p.channel := by
  cases p with
  | encReq w => rfl
  | decReq w => rfl
  | wireByte b =>
    rw [decodePacket]
    cases h : contBit b
    · rw [decodeByte_of_final h]; rfl
    · rw [decodeByte_of_cont h]; rfl

theorem decodePacket_encodePacket (i : Instr) : decodePacket (encodePacket i) = i := by
  cases i with
  | encode v => rfl
  | decode len buf => exact congrArg₂ Instr.decode (extract_append_high len buf) (extract_append_low len buf)
  | varintCont d => rw [encodePacket, decodePacket, decodeByte_of_cont (contBit_contByte d), dataBits_contByte]
  | varintFinal d => rw [encodePacket, decodePacket, decodeByte_of_final (contBit_finalByte d), dataBits_finalByte]

/-- Two neighbouring slices that make up a whole vector. -/
theorem extract_append_extract {n m : Nat} (w : BitVec (n + m)) : w.extractLsb' m n ++ w.extractLsb' 0 m = w := by
  apply BitVec.eq_of_getLsbD_eq
  intro j hj
  rw [BitVec.getLsbD_append]
  split
  case isTrue h => simp [h]
  case isFalse h => simp [show j - m < n by omega, show m + (j - m) = j by omega]

theorem encodePacket_decodePacket (p : Packet) : encodePacket (decodePacket p) = p := by
  cases p with
  | encReq w => rfl
  | decReq w => exact congrArg Packet.decReq (extract_append_extract (n := 4) (m := 120) w)
  | wireByte b =>
    rw [decodePacket]
    cases h : contBit b
    · rw [decodeByte_of_final h, encodePacket, finalByte_dataBits h]
    · rw [decodeByte_of_cont h, encodePacket, contByte_dataBits h]

/-- Settles O38: the bytes of a payload decode to the instruction it is, and that of an instruction's payload is the
instruction. -/
theorem decodeOfEncodeIsTheInstruction : Obligations.DecodeOfEncodeIsTheInstruction := by
  intro i
  have h := decode_toBytes (encodePacket i)
  rwa [encodePacket_channel, decodePacket_encodePacket] at h

/-! ### Bytes that are a payload -/

theorem natToBytes_toNat (p : Packet) : natToBytes p.channel.byteCount p.toNat = p.toBytes := by
  rw [← bytesToNat_toBytes p, ← toBytes_length p, natToBytes_bytesToNat]

theorem packetOfBytes_of_length_ne {c : Channel} {bs : List Byte} (h : bs.length ≠ c.byteCount) :
    packetOfBytes c bs = .error (.wrongLength c.byteCount bs.length) := by
  rw [packetOfBytes.eq_def, if_neg h]

/-- Bytes of the channel's count are rejected for a bit above bit 123 of DEC_REQ, and are a payload of the channel
otherwise, the one with their bits. -/
theorem packetOfBytes_of_length_eq {c : Channel} {bs : List Byte} (h : bs.length = c.byteCount) :
    (c = .decReq ∧ 2 ^ 124 ≤ bytesToNat bs ∧ packetOfBytes c bs = .error .paddingSet) ∨
    (¬(c = .decReq ∧ 2 ^ 124 ≤ bytesToNat bs) ∧
      ∃ p, packetOfBytes c bs = .ok p ∧ p.channel = c ∧ p.toBytes = bs) := by
  have hlt := bytesToNat_lt bs
  have hbytes (p : Packet) (hc : p.channel = c) (hw : p.toNat = bytesToNat bs) : p.toBytes = bs := by
    rw [← natToBytes_toNat, hc, hw, ← h, natToBytes_bytesToNat]
  rw [packetOfBytes.eq_def, if_pos h]
  cases c with
  | encReq =>
    have hw : bytesToNat bs < 2 ^ 64 := by rw [h] at hlt; exact hlt
    exact .inr ⟨by simp, _, rfl, rfl, hbytes (.encReq _) rfl (Nat.mod_eq_of_lt hw)⟩
  | decReq =>
    rcases Nat.lt_or_ge (bytesToNat bs) (2 ^ 124) with hw | hw
    · exact .inr ⟨fun hp => Nat.not_le.mpr hw hp.2, _, if_pos hw, rfl,
        hbytes (.decReq _) rfl (Nat.mod_eq_of_lt hw)⟩
    · exact .inl ⟨rfl, hw, if_neg (Nat.not_lt.mpr hw)⟩
  | wireByte =>
    have hw : bytesToNat bs < 2 ^ 8 := by rw [h] at hlt; exact hlt
    exact .inr ⟨by simp, _, rfl, rfl, hbytes (.wireByte _) rfl (Nat.mod_eq_of_lt hw)⟩

theorem decode_eq_ok_iff {c : Channel} {bs : List Byte} {i : Instr} :
    decode c bs = .ok i ↔ ∃ p, packetOfBytes c bs = .ok p ∧ decodePacket p = i := by
  rw [decode]
  cases packetOfBytes c bs <;> simp

theorem decode_eq_error_iff {c : Channel} {bs : List Byte} {e : DecodeError} :
    decode c bs = .error e ↔ packetOfBytes c bs = .error e := by
  rw [decode]
  cases packetOfBytes c bs <;> simp

/-- Settles O39: the bytes are those of the payload they are read as, and a payload is that of the instruction it decodes
to. -/
theorem decodedBytesAreTheEncoding : Obligations.DecodedBytesAreTheEncoding := by
  intro c bs i h
  obtain ⟨p, hp, rfl⟩ := decode_eq_ok_iff.mp h
  by_cases hlen : bs.length = c.byteCount
  · rcases packetOfBytes_of_length_eq hlen with ⟨-, -, herr⟩ | ⟨-, q, hq, hchannel, hbytes⟩
    · rw [herr] at hp; cases hp
    · obtain rfl : p = q := Except.ok.inj (hp.symm.trans hq)
      rw [decodePacket_channel, encode, encodePacket_decodePacket]
      exact ⟨hchannel, hbytes⟩
  · rw [packetOfBytes_of_length_ne hlen] at hp; cases hp

/-- Settles O40: the two ways in which bytes are no payload of their channel. -/
theorem decoderRejectsByName : Obligations.DecoderRejectsByName := by
  intro c bs
  refine ⟨fun hlen => decode_eq_error_iff.mpr (packetOfBytes_of_length_ne hlen), fun hlen => ?_⟩
  rcases packetOfBytes_of_length_eq hlen with ⟨hc, hpad, herr⟩ | ⟨hpad, p, hp, -⟩
  · have hd := decode_eq_error_iff.mpr herr
    exact ⟨iff_of_true hd ⟨hc, hpad⟩, fun hne => absurd hd hne⟩
  · have hd : decode c bs = .ok (decodePacket p) := decode_eq_ok_iff.mpr ⟨p, hp, rfl⟩
    exact ⟨iff_of_false (by simp [hd]) hpad, fun _ => ⟨_, hd⟩⟩

/-- Settles O41: the four words, run through the decoder. -/
theorem writtenOutWordsDecode : Obligations.WrittenOutWordsDecode := by
  unfold Obligations.WrittenOutWordsDecode
  decide

/-! ### The rows of the table (R73) -/

/-- The mask of the byte forms selects the continuation bit. -/
theorem toNat_and_mask (b : Byte) : b.toNat &&& 0x80 = if contBit b then 0x80 else 0 := by
  have h := Nat.and_two_pow b.toNat 7
  rw [show b.toNat.testBit 7 = contBit b from rfl] at h
  cases hb : contBit b <;> simpa [hb] using h

/-- Settles O42: the channel selects the row of an operation, whose mask is 0, and the continuation bit that of a byte. -/
theorem exactlyOneTableRowSelectsAPayload : Obligations.ExactlyOneTableRowSelectsAPayload := by
  intro p
  cases p with
  | encReq w => simp [opcodeTable, OpcodeRow.selects, Packet.channel, decodePacket, Instr.mnemonic]
  | decReq w => simp [opcodeTable, OpcodeRow.selects, Packet.channel, decodePacket, Instr.mnemonic]
  | wireByte b =>
    cases hb : contBit b <;>
      simp [opcodeTable, OpcodeRow.selects, Packet.channel, Packet.toNat, toNat_and_mask, hb, decodePacket, decodeByte,
        Instr.mnemonic]

/-! ### The response payloads (R69, R71, R72) -/

@[simp] theorem ofCode_code (st : Status) : Status.ofCode st.code = st := by cases st <;> rfl

@[simp] theorem code_ofCode (c : BitVec 2) : (Status.ofCode c).code = c := by revert c; decide

section layout
variable {m n k : Nat}

/-- A vector of three fields gives each of them back at its place. -/
theorem extract_append_append (x : BitVec m) (y : BitVec n) (z : BitVec k) :
    (x ++ y ++ z).extractLsb' (k + n) m = x ∧ (x ++ y ++ z).extractLsb' k n = y ∧ (x ++ y ++ z).extractLsb' 0 k = z := by
  refine ⟨?_, ?_, extract_append_low _ _⟩
  · apply BitVec.eq_of_getLsbD_eq
    intro j hj
    simp [BitVec.getLsbD_append, hj, show ¬ k + n + j < k by omega, show k + n + j - k = n + j by omega]
  · apply BitVec.eq_of_getLsbD_eq
    intro j hj
    simp [BitVec.getLsbD_append, hj]

/-- Three neighbouring slices that make up a whole vector. -/
theorem extract_append_extract_append_extract (w : BitVec (m + n + k)) :
    w.extractLsb' (k + n) m ++ w.extractLsb' k n ++ w.extractLsb' 0 k = w := by
  have high : w.extractLsb' (k + n) m ++ w.extractLsb' k n = w.extractLsb' k (m + n) := by
    apply BitVec.eq_of_getLsbD_eq
    intro j hj
    rw [BitVec.getLsbD_append]
    split
    case isTrue h => simp [h, hj]
    case isFalse h => simp [hj, show j - n < m by omega, show k + n + (j - n) = k + j by omega]
  rw [high, extract_append_extract]

end layout

theorem encRsp_unpack_pack (r : EncRsp) : EncRsp.unpack r.pack = r := by
  obtain ⟨hstatus, hlen, hbytes⟩ := extract_append_append r.status.code r.len r.bytes
  rw [EncRsp.unpack, EncRsp.pack, hstatus, hlen, hbytes, ofCode_code]

theorem decRsp_unpack_pack (r : DecRsp) : DecRsp.unpack r.pack = r := by
  obtain ⟨hstatus, hconsumed, hvalue⟩ := extract_append_append r.status.code r.consumed r.value
  rw [DecRsp.unpack, DecRsp.pack, hstatus, hconsumed, hvalue, ofCode_code]

theorem encRsp_pack_unpack (w : BitVec 86) : (EncRsp.unpack w).pack = w := by
  rw [EncRsp.unpack, EncRsp.pack, code_ofCode]
  exact extract_append_extract_append_extract (m := 2) (n := 4) (k := 80) w

theorem decRsp_pack_unpack (w : BitVec 70) : (DecRsp.unpack w).pack = w := by
  rw [DecRsp.unpack, DecRsp.pack, code_ofCode]
  exact extract_append_extract_append_extract (m := 2) (n := 4) (k := 64) w

/-- Settles O43: each payload is the append of its three fields, whose slices are the fields. -/
theorem responsePayloadsHoldTheirFields : Obligations.ResponsePayloadsHoldTheirFields := by
  refine ⟨fun r => ?_, encRsp_pack_unpack, fun r => ?_, decRsp_pack_unpack⟩
  · obtain ⟨hstatus, hlen, hbytes⟩ := extract_append_append r.status.code r.len r.bytes
    exact ⟨hstatus, hlen, hbytes, encRsp_unpack_pack r⟩
  · obtain ⟨hstatus, hconsumed, hvalue⟩ := extract_append_append r.status.code r.consumed r.value
    exact ⟨hstatus, hconsumed, hvalue, decRsp_unpack_pack r⟩

end Sys2Proof.Machine
end

section
/-! PROOF. The byte forms as instructions of the DECODE loop (30_encoding.md R60, R73; 41_decode.md R112). -/

namespace Sys2Proof.Machine

/-- Settles O34: the running branch of VARINT.CONT. -/
theorem continuationByteExtendsTheScan : Obligations.ContinuationByteExtendsTheScan := by
  intro d buf n acc i s h
  rw [exec, execVarintCont, h]
  rfl

/-- Settles O35: the running branch of VARINT.FINAL, which ends with the response by the accumulator. -/
theorem finalByteEndsTheScan : Obligations.FinalByteEndsTheScan := by
  intro d buf n acc i s h
  rw [exec, execVarintFinal, h]
  rfl

/-- Settles O36: the idle and the finished branch of both byte forms. -/
theorem byteFormOutsideALoopChangesNothing : Obligations.ByteFormOutsideALoopChangesNothing := by
  intro d s h
  simp only [exec, execVarintCont, execVarintFinal]
  cases hw : s.dec.work with
  | idle => exact ⟨rfl, rfl⟩
  | done r => exact ⟨rfl, rfl⟩
  | looping buf n acc i => exact absurd hw (h buf n acc i)

end Sys2Proof.Machine
end

section
/-! PROOF. Encoded forms and their values: the groups (30_encoding.md R61 to R63), ENC and the minimal form (R65), its
length (R67) and the tenth byte (R82). -/

namespace Sys2Proof.Machine

/-! ### The value as sum and as OR (R63) -/

theorem valueFrom_eq_sum (s : List Byte) (i : Nat) :
    valueFrom i s = ((s.zipIdx i).map fun p => (dataBits p.1).toNat <<< (7 * p.2)).sum := by
  induction s generalizing i with
  | nil => rfl
  | cons b s ih => rw [valueFrom, ih, List.zipIdx_cons, List.map_cons, List.sum_cons]

theorem valueOf_eq_or (s : List Byte) :
    valueOf s = s.zipIdx.foldl (fun acc p => acc ||| ((dataBits p.1).toNat <<< (7 * p.2))) 0 := by
  induction s using List.reverseRecOn with
  | nil => rfl
  | append_singleton s b ih =>
    rw [List.zipIdx_append, List.foldl_append, ← ih, ← addGroup_valueOf, Nat.zero_add]
    rfl

theorem valueOf_map_clear (s : List Byte) : valueOf (s.map fun b => b &&& 0x7F) = valueOf s := by
  induction s with
  | nil => rfl
  | cons b s ih =>
    have hb : (b &&& 0x7F).toNat = b.toNat % 128 := Nat.and_two_pow_sub_one_eq_mod b.toNat 7
    rw [List.map_cons, valueOf_cons, valueOf_cons, ih, hb, Nat.mod_mod]

/-- Settles O16: the sum by the recursion of `val`, the OR byte by byte from the end, where the new group stands above all
earlier ones. -/
theorem valueIsSumAndOrOfShiftedGroups : Obligations.ValueIsSumAndOrOfShiftedGroups :=
  fun s => ⟨valueFrom_eq_sum s 0, valueOf_eq_or s, valueOf_map_clear s⟩

/-! ### Groups as slices of the value (R62) -/

/-- Of any sequence, not only of an Encoded form. -/
theorem group_eq_slice {s : List Byte} {i : Nat} {b : Byte} (h : s[i]? = some b) :
    (dataBits b).toNat = valueOf s / 2 ^ (7 * i) % 128 := by
  induction s generalizing i with
  | nil => simp at h
  | cons c s ih =>
    rw [valueOf_cons]
    cases i with
    | zero =>
      obtain rfl : c = b := by simpa using h
      rw [dataBits_toNat, Nat.mul_zero, Nat.pow_zero, Nat.div_one]
      omega
    | succ i =>
      have hpow : 2 ^ (7 * (i + 1)) = 128 * 2 ^ (7 * i) := by rw [Nat.mul_succ, Nat.pow_add, Nat.mul_comm]
      have hdiv : (c.toNat % 128 + 128 * valueOf s) / 128 = valueOf s := by omega
      rw [ih (by simpa using h), hpow, ← Nat.div_div_eq_div_mul, hdiv]

/-- Settles O15: the group at a position is the slice of the value at its weight. -/
theorem groupIsSliceOfTheValue : Obligations.GroupIsSliceOfTheValue := by
  intro s i b _ hb
  rw [group_eq_slice hb, Nat.shiftRight_eq_div_pow]
  exact (Nat.and_two_pow_sub_one_eq_mod _ 7).symm

/-! ### Encoded forms (R61) -/

theorem isEncodedForm_singleton (b : Byte) : isEncodedForm [b] = true ↔ contBit b = false := by
  simp [isEncodedForm, msb_eq_contBit]

theorem isEncodedForm_cons {b : Byte} {s : List Byte} (hs : s ≠ []) :
    isEncodedForm (b :: s) = true ↔ contBit b = true ∧ isEncodedForm s = true := by
  cases s with
  | nil => exact absurd rfl hs
  | cons c s => simp [isEncodedForm, msb_eq_contBit]

/-- An Encoded form is continuation bytes and then one final byte. -/
theorem isEncodedForm_append_singleton (s : List Byte) (b : Byte) :
    isEncodedForm (s ++ [b]) = true ↔ (∀ c ∈ s, contBit c = true) ∧ contBit b = false := by
  induction s with
  | nil => simp [isEncodedForm_singleton]
  | cons c s ih => rw [List.cons_append, isEncodedForm_cons (by simp), ih, List.forall_mem_cons, and_assoc]

theorem contBit_of_isEncodedForm {s : List Byte} {k : Nat} {b : Byte} (hs : isEncodedForm s = true)
    (hb : s[k]? = some b) : contBit b = true ↔ k + 1 < s.length := by
  cases s using List.reverseRecOn with
  | nil => cases hs
  | append_singleton s c =>
    obtain ⟨hcont, hfinal⟩ := (isEncodedForm_append_singleton s c).mp hs
    have hk := (List.getElem?_eq_some_iff.mp hb).1
    rw [List.length_append, List.length_singleton] at hk ⊢
    rcases Nat.lt_or_eq_of_le (Nat.le_of_lt_succ hk) with hlt | rfl
    · rw [List.getElem?_append_left hlt] at hb
      exact iff_of_true (hcont b (List.mem_of_getElem? hb)) (by omega)
    · obtain rfl : c = b := by simpa using hb
      exact iff_of_false (by simp [hfinal]) (by omega)

/-- An Encoded form is minimal exactly when its value reaches the weight of its last group, or has one byte. -/
theorem isMinimal_iff {s : List Byte} (hs : isEncodedForm s = true) :
    isMinimal s = true ↔ s.length = 1 ∨ 2 ^ (7 * (s.length - 1)) ≤ valueOf s := by
  cases s using List.reverseRecOn with
  | nil => cases hs
  | append_singleton s b =>
    have hb := (contBit_eq_false_iff_lt b).mp ((isEncodedForm_append_singleton s b).mp hs).2
    have hlow := valueOf_lt s
    have hlast : b ≠ 0 ↔ 2 ^ (7 * s.length) ≤ valueOf (s ++ [b]) := by
      rw [valueOf_append, valueOf_cons, valueOf_nil, Nat.mod_eq_of_lt hb, Ne, ← BitVec.toNat_inj]
      constructor
      · intro hne
        exact (Nat.le_mul_of_pos_right _ (Nat.pos_of_ne_zero hne)).trans (Nat.le_add_left _ _)
      · rintro hle h0
        rw [h0] at hle
        exact absurd hle (by simpa using hlow)
    simp [isMinimal, hs, ← hlast]

/-! ### ENC -/

theorem groupByte_toNat (v : Nat) : (BitVec.ofNat 8 (0x80 ||| (v &&& 0x7F))).toNat = 128 + v % 128 := by
  have hmod : v % 128 < 2 ^ 7 := Nat.mod_lt _ (by decide)
  have hor : 128 + v % 128 = 0x80 ||| v % 128 := Nat.two_pow_add_eq_or_of_lt hmod 1
  have hand : v &&& 0x7F = v % 128 := Nat.and_two_pow_sub_one_eq_mod v 7
  rw [BitVec.toNat_ofNat, hand, ← hor]
  omega

/-- Induction along the recursion of ENC. -/
theorem refEnc_induction {P : Nat → List Byte → Prop} (final : ∀ v, v < 128 → P v [BitVec.ofNat 8 v])
    (cont : ∀ v, 128 ≤ v → P (v >>> 7) (refEnc (v >>> 7)) →
      P v (BitVec.ofNat 8 (0x80 ||| (v &&& 0x7F)) :: refEnc (v >>> 7)))
    (v : Nat) : P v (refEnc v) := by
  induction v using Nat.strongRecOn with
  | ind v ih =>
    rcases Nat.lt_or_ge v 128 with h | h
    · rw [refEnc_of_lt h]
      exact final v h
    · rw [refEnc_of_ge h]
      refine cont v h (ih _ ?_)
      rw [Nat.shiftRight_eq_div_pow]
      omega

theorem isEncodedForm_refEnc (v : Nat) : isEncodedForm (refEnc v) = true := by
  refine refEnc_induction (P := fun _ s => isEncodedForm s = true) (fun v h => ?_) (fun v _ ih => ?_) v
  · rw [isEncodedForm_singleton, contBit_eq_false_iff_lt, BitVec.toNat_ofNat]
    omega
  · rw [isEncodedForm_cons (refEnc_ne_nil _), contBit_iff_le, groupByte_toNat]
    exact ⟨Nat.le_add_right _ _, ih⟩

theorem valueOf_refEnc (v : Nat) : valueOf (refEnc v) = v := by
  refine refEnc_induction (P := fun v s => valueOf s = v) (fun v h => ?_) (fun v _ ih => ?_) v
  · rw [valueOf_cons, valueOf_nil, BitVec.toNat_ofNat]
    omega
  · rw [valueOf_cons, groupByte_toNat, ih, Nat.shiftRight_eq_div_pow]
    omega

/-! ### The length of ENC (R65, R67) -/

theorem lt_refEnc_length_iff {v k : Nat} : k < (refEnc v).length ↔ k = 0 ∨ 2 ^ (7 * k) ≤ v := by
  induction k generalizing v with
  | zero => simpa using List.length_pos_iff.mpr (refEnc_ne_nil v)
  | succ k ih =>
    have hpow : 2 ^ (7 * (k + 1)) = 128 * 2 ^ (7 * k) := by rw [Nat.mul_succ, Nat.pow_add, Nat.mul_comm]
    have hpos : 0 < 2 ^ (7 * k) := Nat.two_pow_pos _
    rcases Nat.lt_or_ge v 128 with h | h
    · rw [refEnc_of_lt h, List.length_singleton]
      omega
    · rw [refEnc_of_ge h, List.length_cons, Nat.succ_lt_succ_iff, ih, Nat.shiftRight_eq_div_pow]
      rcases Nat.eq_zero_or_pos k with rfl | hk
      · simpa using h
      · omega

theorem refEnc_length_eq_iff {v L : Nat} (hL : 0 < L) :
    (refEnc v).length = L ↔ (L = 1 ∨ 2 ^ (7 * (L - 1)) ≤ v) ∧ v < 2 ^ (7 * L) := by
  have hlow := lt_refEnc_length_iff (v := v) (k := L - 1)
  have hhigh := lt_refEnc_length_iff (v := v) (k := L)
  omega

theorem refEnc_length (v : Nat) : (refEnc v).length = max 1 ((bitLength v + 6) / 7) := by
  refine eq_of_forall_lt_iff fun k => ?_
  have hbits := bitLength_le_iff v (7 * k)
  rw [lt_refEnc_length_iff]
  omega

/-! ### The minimal form (R65) -/

theorem isMinimal_iff_length {s : List Byte} (hs : isEncodedForm s = true) :
    isMinimal s = true ↔ s.length = (refEnc (valueOf s)).length := by
  have hpos : 0 < s.length := by
    cases s with
    | nil => cases hs
    | cons b s => exact Nat.succ_pos _
  rw [isMinimal_iff hs, eq_comm (a := s.length) (b := (refEnc _).length), refEnc_length_eq_iff hpos]
  exact (and_iff_left (valueOf_lt s)).symm

theorem isMinimal_refEnc (v : Nat) : isMinimal (refEnc v) = true := by
  rw [isMinimal_iff_length (isEncodedForm_refEnc v), valueOf_refEnc]

theorem byte_ext {b c : Byte} (hcont : contBit b = contBit c) (hdata : dataBits b = dataBits c) : b = c := by
  cases hb : contBit b
  · rw [← finalByte_dataBits hb, hdata, finalByte_dataBits (hcont ▸ hb)]
  · rw [← contByte_dataBits hb, hdata, contByte_dataBits (hcont ▸ hb)]

/-- The length gives every continuation bit of an Encoded form, and the value every group. -/
theorem isEncodedForm_ext {s r : List Byte} (hs : isEncodedForm s = true) (hr : isEncodedForm r = true)
    (hlen : s.length = r.length) (hval : valueOf s = valueOf r) : s = r := by
  apply List.ext_getElem hlen
  intro k hks hkr
  have hsk := List.getElem?_eq_getElem hks
  have hrk := List.getElem?_eq_getElem hkr
  refine byte_ext (Bool.eq_iff_iff.mpr ?_) (BitVec.eq_of_toNat_eq ?_)
  · rw [contBit_of_isEncodedForm hs hsk, contBit_of_isEncodedForm hr hrk, hlen]
  · rw [group_eq_slice hsk, group_eq_slice hrk, hval]

theorem isMinimal_and_valueOf_iff {v : Nat} {s : List Byte} :
    (isMinimal s = true ∧ valueOf s = v) ↔ s = refEnc v := by
  constructor
  · rintro ⟨hmin, rfl⟩
    have hs : isEncodedForm s = true := (Bool.and_eq_true_iff.mp hmin).1
    exact isEncodedForm_ext hs (isEncodedForm_refEnc _) ((isMinimal_iff_length hs).mp hmin) (valueOf_refEnc _).symm
  · rintro rfl
    exact ⟨isMinimal_refEnc v, valueOf_refEnc v⟩

/-! ### The response of ENCODE -/

theorem refEnc_toNat_length_le (v : Value) : (refEnc v.toNat).length ≤ 10 := by
  have hlong := lt_refEnc_length_iff (v := v.toNat) (k := 10)
  have hv := v.isLt
  omega

theorem encodeRsp_len_toNat (v : Value) : (encodeRsp v).len.toNat = (refEnc v.toNat).length :=
  Nat.mod_eq_of_lt ((refEnc_toNat_length_le v).trans_lt (by decide))

theorem encodeRsp_encoding (v : Value) : (encodeRsp v).encoding = refEnc v.toNat := by
  have hlen := refEnc_toNat_length_le v
  apply List.ext_getElem
  · rw [EncRsp.encoding, List.length_map, List.length_range, encodeRsp_len_toNat]
  · intro k _ hk
    simp [EncRsp.encoding, byteAt_encodeRsp_bytes v (hk.trans_le hlen), hk]

/-- Settles O10: by the length law, and because length and value determine an Encoded form. -/
theorem minimalEncodingExistsAndIsUnique : Obligations.MinimalEncodingExistsAndIsUnique := by
  refine ⟨fun s hs => ⟨?_, ?_⟩, fun v s => isMinimal_and_valueOf_iff, refEnc_of_lt (by decide), fun v => ?_⟩
  · simp [isMinimal, hs]
  · rw [isMinimal_iff_length hs, refEnc_length]
  · rw [encodeRsp_encoding]
    exact isMinimal_refEnc _

/-- Settles O12: the length law, a Value being below `2 ^ 64`. -/
theorem encodingLengthTable : Obligations.EncodingLengthTable := by
  intro v L hL _
  have hmin : v.toNat < 2 ^ min 64 (7 * L) ↔ v.toNat < 2 ^ (7 * L) := by
    rcases min_choice 64 (7 * L) with h | h
    · have hle : 64 ≤ 7 * L := min_eq_left_iff.mp h
      rw [h]
      exact iff_of_true v.isLt (v.isLt.trans_le (Nat.pow_le_pow_right (by decide) hle))
    · rw [h]
  rw [encodeRsp_len_toNat, refEnc_length_eq_iff hL, hmin]

/-! ### The tenth byte (R82) -/

theorem refEnc_tenth_byte {v : Value} (h : (refEnc v.toNat).length = 10) : (refEnc v.toNat)[9]? = some 0x01 := by
  have hlow : 2 ^ 63 ≤ v.toNat := by
    have hlaw := (refEnc_length_eq_iff (by decide)).mp h
    omega
  have hrest : v.toNat >>> (7 * 9) = 1 := by
    have hv := v.isLt
    rw [Nat.shiftRight_eq_div_pow]
    omega
  have hdrop : (refEnc v.toNat).drop 9 = [0x01] := by
    rw [refEnc_drop fun _ => by rw [hrest]; decide, hrest]
    exact refEnc_of_lt (by decide)
  simpa [hdrop] using (List.getElem?_drop (xs := refEnc v.toNat) (i := 9) (j := 0)).symm

/-- A group that is not 0 gives the value at least the group's number times its weight. -/
theorem group_mul_weight_le {s : List Byte} {i : Nat} {b : Byte} (h : s[i]? = some b) :
    (dataBits b).toNat * 2 ^ (7 * i) ≤ valueOf s :=
  calc (dataBits b).toNat * 2 ^ (7 * i)
    _ ≤ valueOf s / 2 ^ (7 * i) * 2 ^ (7 * i) := Nat.mul_le_mul_right _ (group_eq_slice h ▸ Nat.mod_le _ _)
    _ ≤ valueOf s := Nat.div_mul_le_self _ _

/-- A data bit at a weight of `2 ^ 64` or above: bits 6 to 1 at position 9, and any at a later position. -/
theorem two_pow_64_le_valueOf {s : List Byte} {i : Nat} {b : Byte} (h : s[i]? = some b)
    (hbit : (i = 9 ∧ b.extractLsb' 1 6 ≠ 0) ∨ (10 ≤ i ∧ dataBits b ≠ 0)) : 2 ^ 64 ≤ valueOf s := by
  refine le_trans ?_ (group_mul_weight_le h)
  rw [Ne, Ne, ← BitVec.toNat_inj, ← BitVec.toNat_inj] at hbit
  rcases hbit with ⟨rfl, hne⟩ | ⟨hi, hne⟩
  · have htwo : 2 ≤ (dataBits b).toNat := by
      have hbits : b.toNat / 2 % 64 ≠ 0 := by simpa [Nat.shiftRight_eq_div_pow] using hne
      rw [dataBits_toNat]
      omega
    omega
  · calc 2 ^ 64
      _ ≤ 2 ^ (7 * i) := Nat.pow_le_pow_right (by decide) (by omega)
      _ ≤ (dataBits b).toNat * 2 ^ (7 * i) := Nat.le_mul_of_pos_left _ (Nat.pos_of_ne_zero hne)

theorem succ_terminator_le {buf : DecIn} {n : Len} {t : Nat} (h : terminator (provided buf n) = some t) :
    t + 1 ≤ n.toNat :=
  provided_length buf n ▸ terminator_lt h

/-- Settles O13: the tenth byte is what ENC makes of bit 63 alone, and a group at position 9 or later is a factor of a
weight of `2 ^ 63` or more. -/
theorem tenthByteHoldsBit63Only : Obligations.TenthByteHoldsBit63Only := by
  refine ⟨fun v hlen => ?_, fun buf n t i ht hi hbit => ?_⟩
  · rw [encodeRsp_len_toNat] at hlen
    rw [byteAt_encodeRsp_bytes v (by decide), refEnc_tenth_byte hlen, Option.getD_some]
  · have hn : i < n.toNat := hi.trans_lt (succ_terminator_le ht)
    have hbyte : ((provided buf n).take (t + 1))[i]? = some (byteAt buf i) := by
      rw [List.getElem?_take_of_lt (Nat.lt_succ_of_le hi), provided_getElem?, if_pos hn]
    have hbig : 2 ^ 64 ≤ valueOf ((provided buf n).take (t + 1)) := by
      refine two_pow_64_le_valueOf hbyte (hbit.imp_left ?_)
      rintro ⟨rfl, hne⟩
      exact ⟨rfl, hne⟩
    rw [decodeRsp_of_terminator ht, finishDecode_overflows hbig]
    exact ⟨hbig, rfl⟩

end Sys2Proof.Machine
end

section
/-! PROOF. The response values that 30_encoding.md R76 reserves are never produced. -/

namespace Sys2Proof.Machine

/-- Every byte of ENC_OUT as R76 allows it: bit 7 set before the last byte of the encoding, clear on it, zero after it. -/
theorem encodeRsp_byte_legal (v : Value) {k : Nat} (hk : k < 10) :
    (if k + 1 < (encodeRsp v).len.toNat then (byteAt (encodeRsp v).bytes k).msb
     else if k + 1 = (encodeRsp v).len.toNat then !(byteAt (encodeRsp v).bytes k).msb
     else byteAt (encodeRsp v).bytes k == 0) = true := by
  rw [encodeRsp_len_toNat, byteAt_encodeRsp_bytes v hk]
  rcases Nat.lt_or_ge k (refEnc v.toNat).length with hlt | hge
  · have hbyte := List.getElem?_eq_getElem hlt
    have hcont := contBit_of_isEncodedForm (isEncodedForm_refEnc v.toNat) hbyte
    rw [hbyte, Option.getD_some, msb_eq_contBit]
    split
    case isTrue h => exact hcont.mpr h
    case isFalse h => rw [if_pos (by omega), Bool.not_eq_true', ← Bool.not_eq_true, hcont]; exact h
  · rw [if_neg (by omega), if_neg (by omega), List.getElem?_eq_none hge]
    rfl

theorem encodeRsp_legal (v : Value) : (encodeRsp v).legal = true := by
  have hpos : 1 ≤ (encodeRsp v).len.toNat :=
    encodeRsp_len_toNat v ▸ List.length_pos_iff.mpr (refEnc_ne_nil v.toNat)
  have hle : (encodeRsp v).len.toNat ≤ 10 := encodeRsp_len_toNat v ▸ refEnc_toNat_length_le v
  have hbytes := fun k (hk : k ∈ List.range 10) => encodeRsp_byte_legal v (List.mem_range.mp hk)
  rw [EncRsp.legal, Bool.and_eq_true, Bool.and_eq_true, Bool.and_eq_true, decide_eq_true_iff, decide_eq_true_iff]
  exact ⟨⟨⟨rfl, hpos⟩, hle⟩, List.all_eq_true.mpr hbytes⟩

theorem finishDecode_legal (x : Nat) {c : Nat} (hpos : 0 < c) (hc : c < 16) : (finishDecode x c).legal = true := by
  rcases Nat.lt_or_ge x (2 ^ 64) with hx | hx
  · have hne : BitVec.ofNat 4 c ≠ 0 := by
      rw [Ne, ← BitVec.toNat_inj, BitVec.toNat_ofNat, Nat.mod_eq_of_lt hc]
      exact hpos.ne'
    rw [finishDecode_fits hx]
    simpa [DecRsp.legal] using hne
  · rw [finishDecode_overflows hx]
    rfl

theorem decodeRsp_legal (buf : DecIn) (n : Len) : (decodeRsp buf n).legal = true := by
  cases h : terminator (provided buf n) with
  | none =>
    rw [decodeRsp_of_unterminated (terminator_eq_none_iff.mp h)]
    rfl
  | some t =>
    rw [decodeRsp_of_terminator h]
    exact finishDecode_legal _ t.succ_pos ((succ_terminator_le h).trans_lt n.isLt)

/-- What holds of every response that a unit's response function gives, and of the one its slot owes, an edge keeps of the
slot. -/
theorem UnitEdge.keeps_slot {ρ α ω : Type} {f : ρ → α} {start : ρ → ω} {w : ω} {u u' : UnitState α ω}
    {log log' : List (Event ρ α)} {P : α → Prop} (h : UnitEdge f start w u log u' log') (hf : ∀ q, P (f q))
    (hu : ∀ r, u.slot = .full r → P r) : ∀ r, u'.slot = .full r → P r := by
  cases h with
  | accept q n _ =>
    intro r hr
    obtain rfl : f q = r := Slot.full.inj hr
    exact hf q
  | deliver r _ =>
    intro r' hr
    cases hr
  | hold n => exact hu

/-- Settles O53: RESET leaves no response in a slot, and the edge of a unit puts only a value of its response function
there, which is legal. -/
theorem reservedResponseValuesAreNeverProduced : Obligations.ReservedResponseValuesAreNeverProduced := by
  rintro s t ⟨henc, hdec⟩ hstep
  rcases step_cases hstep with ⟨-, rfl⟩ | ⟨-, we, wd, -, -, rfl⟩
  · exact ⟨fun r h => (by cases h), fun r h => (by cases h)⟩
  · exact ⟨(encNext_unitEdge s.pins we s.enc s.encLog).keeps_slot encodeRsp_legal henc,
      (decNext_unitEdge s.pins wd s.dec s.decLog).keeps_slot (fun q => decodeRsp_legal q.buf q.len) hdec⟩

end Sys2Proof.Machine
end

section
/-! PROOF. The five classes of a DECODE request (30_encoding.md R75), by the terminator of the provided sequence. -/

namespace Sys2Proof.Machine

/-! ### The classes by the terminator -/

theorem isTerminated_eq_isSome (s : List Byte) : isTerminated s = (terminator s).isSome := by
  induction s with
  | nil => rfl
  | cons b s ih =>
    rw [isTerminated, List.any_cons, ← isTerminated, ih, msb_eq_contBit, terminator]
    cases contBit b <;> simp

theorem terminator_isSome_of_isTerminated {s : List Byte} (h : isTerminated s = true) : ∃ t, terminator s = some t :=
  Option.isSome_iff_exists.mp (isTerminated_eq_isSome s ▸ h)

theorem isEmptyInput_of_terminator {s : List Byte} {t : Nat} (h : terminator s = some t) : isEmptyInput s = false := by
  cases s with
  | nil => cases h
  | cons b s => rfl

theorem isUnterminatedInput_of_terminator {s : List Byte} {t : Nat} (h : terminator s = some t) :
    isUnterminatedInput s = false := by
  have hcont : s.all contBit = false := by
    rw [← Bool.not_eq_true, List.all_eq_true, ← terminator_eq_none_iff, h]
    simp
  rw [isUnterminatedInput, hcont, Bool.and_false]

theorem consumedPart_of_terminator {s : List Byte} {t : Nat} (h : terminator s = some t) :
    consumedPart s = s.take (t + 1) := by
  rw [consumedPart, h]

theorem terminator_append {s : List Byte} {t : Nat} (h : terminator s = some t) (r : List Byte) :
    terminator (s ++ r) = some t := by
  have ht := terminator_lt h
  rw [terminator_eq_some_iff] at h ⊢
  rwa [List.getElem?_append_left ht, List.take_append_of_le_length ht.le]

theorem isTerminated_append {s : List Byte} (h : isTerminated s = true) (r : List Byte) :
    isTerminated (s ++ r) = true := by
  rw [isTerminated, List.any_append, ← isTerminated, h, Bool.true_or]

theorem consumedPart_append {s : List Byte} (h : isTerminated s = true) (r : List Byte) :
    consumedPart (s ++ r) = consumedPart s := by
  obtain ⟨t, ht⟩ := terminator_isSome_of_isTerminated h
  rw [consumedPart_of_terminator (terminator_append ht r), consumedPart_of_terminator ht,
    List.take_append_of_le_length (terminator_lt ht)]

/-! ### The five classes -/

/-- Whether a sequence is in each of the five classes, in the order of R75. -/
def inputClasses (s : List Byte) : List Bool :=
  [isEmptyInput s, isUnterminatedInput s, isOverflowingInput s, isNonMinimalInput s, isCanonicalInput s]

/-- An unterminated sequence is in the first or the second class, a terminated one in one of the others by its value and by
whether it is minimal. -/
theorem inputClasses_count (s : List Byte) : (inputClasses s).count true = 1 := by
  cases h : terminator s with
  | none =>
    have hterm : isTerminated s = false := by rw [isTerminated_eq_isSome, h]; rfl
    have hcont : s.all contBit = true := List.all_eq_true.mpr (terminator_eq_none_iff.mp h)
    simp only [inputClasses, isEmptyInput, isUnterminatedInput, isOverflowingInput, isNonMinimalInput,
      isCanonicalInput, hterm, hcont]
    cases s.isEmpty <;> rfl
  | some t =>
    have hterm : isTerminated s = true := by rw [isTerminated_eq_isSome, h]; rfl
    simp only [inputClasses, isEmptyInput_of_terminator h, isUnterminatedInput_of_terminator h, isOverflowingInput,
      isNonMinimalInput, isCanonicalInput, hterm, ← Nat.not_le, decide_not]
    cases decide (2 ^ Config.valueBits ≤ valueOf (consumedPart s)) <;> cases isMinimal (consumedPart s) <;> rfl

/-- Bytes after a terminated sequence change none of its classes. -/
theorem inputClasses_append {s : List Byte} (h : isTerminated s = true) (r : List Byte) :
    inputClasses (s ++ r) = inputClasses s := by
  obtain ⟨t, ht⟩ := terminator_isSome_of_isTerminated h
  have ht' := terminator_append ht r
  simp only [inputClasses, isEmptyInput_of_terminator ht, isEmptyInput_of_terminator ht',
    isUnterminatedInput_of_terminator ht, isUnterminatedInput_of_terminator ht', isOverflowingInput, isNonMinimalInput,
    isCanonicalInput, consumedPart_append h, isTerminated_append h, h]

/-! ### The outcome of each class -/

theorem isEmptyInput_provided_iff (buf : DecIn) (n : Len) : isEmptyInput (provided buf n) = true ↔ n = 0 := by
  rw [isEmptyInput, List.isEmpty_iff, ← List.length_eq_zero_iff, provided_length, ← BitVec.toNat_inj]
  rfl

theorem decodeRsp_of_isEmptyInput {buf : DecIn} {n : Len} (h : isEmptyInput (provided buf n) = true) :
    decodeRsp buf n = raiseError .malformedEncoding :=
  decodeRsp_of_unterminated (by simp [List.isEmpty_iff.mp h])

theorem decodeRsp_of_isUnterminatedInput {buf : DecIn} {n : Len} (h : isUnterminatedInput (provided buf n) = true) :
    decodeRsp buf n = raiseError .malformedEncoding :=
  decodeRsp_of_unterminated (List.all_eq_true.mp (Bool.and_eq_true_iff.mp h).2)

theorem decodeRsp_of_isTerminated {buf : DecIn} {n : Len} (h : isTerminated (provided buf n) = true) :
    ∃ t, terminator (provided buf n) = some t ∧
      decodeRsp buf n = finishDecode (valueOf (consumedPart (provided buf n))) (t + 1) := by
  obtain ⟨t, ht⟩ := terminator_isSome_of_isTerminated h
  rw [consumedPart_of_terminator ht]
  exact ⟨t, ht, decodeRsp_of_terminator ht⟩

theorem decodeRsp_of_isOverflowingInput {buf : DecIn} {n : Len} (h : isOverflowingInput (provided buf n) = true) :
    decodeRsp buf n = raiseError .valueOverflow := by
  rw [isOverflowingInput, Bool.and_eq_true, decide_eq_true_iff] at h
  obtain ⟨hterm, hbig⟩ := h
  obtain ⟨t, -, hrsp⟩ := decodeRsp_of_isTerminated hterm
  rw [hrsp, finishDecode_overflows hbig]

/-- A terminated sequence whose value fits, whether it is minimal or not, is answered with the value and the count of
consumed bytes. -/
theorem decodeRsp_of_fits {buf : DecIn} {n : Len} (hterm : isTerminated (provided buf n) = true)
    (hfits : valueOf (consumedPart (provided buf n)) < 2 ^ 64) :
    (decodeRsp buf n).status = .ok ∧ (decodeRsp buf n).value.toNat = valueOf (consumedPart (provided buf n)) ∧
    terminator (provided buf n) = some ((decodeRsp buf n).consumed.toNat - 1) ∧
    0 < (decodeRsp buf n).consumed.toNat := by
  obtain ⟨t, ht, hrsp⟩ := decodeRsp_of_isTerminated hterm
  have hconsumed : (BitVec.ofNat 4 (t + 1)).toNat = t + 1 :=
    Nat.mod_eq_of_lt ((succ_terminator_le ht).trans_lt n.isLt)
  simp only [hrsp, finishDecode_fits hfits, hconsumed]
  exact ⟨trivial, Nat.mod_eq_of_lt hfits, ht, t.succ_pos⟩

theorem fits_of_class {s : List Byte} (h : isNonMinimalInput s = true ∨ isCanonicalInput s = true) :
    isTerminated s = true ∧ valueOf (consumedPart s) < 2 ^ 64 := by
  simp only [isNonMinimalInput, isCanonicalInput, Bool.and_eq_true, decide_eq_true_iff] at h
  exact h.elim And.left And.left

/-- Settles O28: the terminator, the value of the consumed part and its minimality tell the classes apart, and all three
are those of the consumed part alone. -/
theorem fiveInputClassesDecideTheOutcome : Obligations.FiveInputClassesDecideTheOutcome := by
  refine ⟨fun buf n => ⟨inputClasses_count _, isEmptyInput_provided_iff buf n, decodeRsp_of_isEmptyInput,
    decodeRsp_of_isUnterminatedInput, decodeRsp_of_isOverflowingInput, ?_⟩, fun s r h => ?_⟩
  · intro h
    obtain ⟨hterm, hfits⟩ := fits_of_class h
    exact decodeRsp_of_fits hterm hfits
  · simpa [inputClasses] using inputClasses_append h r

end Sys2Proof.Machine
end

section
/-! PROOF. ENCODE (40_encode.md): ENC by its laws (R91 to R97), the loop of R92, and the response (R96). -/

namespace Sys2Proof.Machine

/-! ### The loop (R92) -/

/-- How many passes an encoder's loop can still make before ENC_OUT is used up. -/
def encPassesLeft : EncWork → Nat
  | .looping _ _ k _ => Config.maxBytes - k
  | .idle => 0
  | .done _ => 0

theorem encPassesLeft_pass {u : EncUnit} {w : EncWork} (hc : encConsistent u) (hw : encWorkNext u.work = .ok w) :
    encPassesLeft w ≤ encPassesLeft u.work - 1 := by
  obtain ⟨slot, wait, draws, work⟩ := u
  cases work with
  | idle => cases hw; exact Nat.zero_le _
  | done r => cases hw; exact Nat.zero_le _
  | looping v rem k out =>
    obtain ⟨hk, -⟩ := hc
    rw [encWorkNext, encPass_of_lt hk] at hw
    cases hw
    split
    case isTrue => exact (Nat.sub_sub 10 k 1).ge
    case isFalse => exact Nat.zero_le _

/-- Working registers that are consistent with a slot `FULL(r)` reach `r`. The slot is the lemma's own, for no pass
reads one. -/
theorem encLoopRun_of_encConsistent {n : Nat} {r : EncRsp} {s : State}
    (hc : encConsistent { s.enc with slot := .full r }) (hn : encPassesLeft s.enc.work ≤ n) :
    encLoopRun n s = .next { s with enc := { s.enc with work := .done r } } := by
  induction n generalizing s with
  | zero =>
    obtain ⟨⟨slot, wait, draws, work⟩, dec, inputs, encLog, decLog⟩ := s
    cases work with
    | idle => cases hc
    | done r' =>
      obtain h | h := hc
      · cases h
      · cases h; rfl
    | looping v rem k out =>
      obtain ⟨hk, -⟩ := hc
      exact absurd (Nat.le_of_sub_eq_zero (Nat.eq_zero_of_le_zero hn)) hk.not_ge
  | succ n ih =>
    obtain ⟨w, hw⟩ := encWorkNext_ok hc
    have hleft := encPassesLeft_pass hc hw
    rw [encLoopRun, runEncLoop_eq, hw, andThen_next]
    exact ih (encConsistent_pass hc hw) (hleft.trans (Nat.sub_le_of_le_add hn))

/-- Settles O33: the loop starts consistent with the response of ENCODE, and has ten passes left. -/
theorem encodeLoopBuildsTheResponse : Obligations.EncodeLoopBuildsTheResponse := by
  intro v s h
  apply encLoopRun_of_encConsistent
  · have hstart := encConsistent_start (u := s.enc) (v := v) 0
    rw [encConsistent, h]
    exact hstart
  · rw [h]
    exact le_rfl

/-! ### The laws of ENC (R91, R93 to R95, R97) -/

/-- Settles O6: the two branches of the recursion. -/
theorem encFollowsItsRecursion : Obligations.EncFollowsItsRecursion :=
  fun _ => ⟨refEnc_of_lt, refEnc_of_ge⟩

theorem refEnc_length_pos (v : Nat) : 0 < (refEnc v).length := List.length_pos_iff.mpr (refEnc_ne_nil v)

/-- Settles O7: the length law, in which the maximum matters for 0 only, and that 10 bytes hold 64 bits. -/
theorem encodingLengthIsCeilOfBitLength : Obligations.EncodingLengthIsCeilOfBitLength := by
  refine ⟨fun v hv => ?_, rfl, refEnc_length,
    fun v => ⟨refEnc_length_pos _, refEnc_toNat_length_le v, encodeRsp_len_toNat v⟩⟩
  have hbits := bitLength_le_iff v 0
  rw [refEnc_length]
  omega

theorem terminator_of_isEncodedForm {s : List Byte} (hs : isEncodedForm s = true) :
    terminator s = some (s.length - 1) := by
  cases s using List.reverseRecOn with
  | nil => cases hs
  | append_singleton s b =>
    obtain ⟨hcont, hfinal⟩ := (isEncodedForm_append_singleton s b).mp hs
    rw [List.length_append, List.length_singleton, Nat.add_sub_cancel]
    exact terminator_eq_some_iff.mpr ⟨⟨b, by simp, hfinal⟩, by simpa using hcont⟩

/-- Settles O8: an encoding is an Encoded form, and these are the laws of one. -/
theorem continuationBitDiscipline : Obligations.ContinuationBitDiscipline := by
  intro v
  have hform := isEncodedForm_refEnc v
  have hterm := terminator_of_isEncodedForm hform
  refine ⟨fun k b hb => contBit_of_isEncodedForm hform hb, hform, ?_, hterm⟩
  rw [isTerminated_eq_isSome, hterm]
  rfl

theorem refEnc_getLast?_ne_zero {v : Nat} (h : 128 ≤ v) : (refEnc v).getLast? ≠ some 0 := by
  have hlen : 1 < (refEnc v).length := lt_refEnc_length_iff.mpr (.inr h)
  have hmin := isMinimal_refEnc v
  simpa [isMinimal, isEncodedForm_refEnc, hlen.ne'] using hmin

/-- No Encoded form of a value is shorter than its encoding, for `k` bytes hold `7k` bits. -/
theorem refEnc_valueOf_length_le {s : List Byte} (hs : s ≠ []) : (refEnc (valueOf s)).length ≤ s.length := by
  rw [← not_lt, lt_refEnc_length_iff, not_or, not_le, List.length_eq_zero_iff]
  exact ⟨hs, valueOf_lt s⟩

theorem ne_nil_of_isEncodedForm {s : List Byte} (hs : isEncodedForm s = true) : s ≠ [] := by
  rintro rfl
  cases hs

/-- The bytes of ENC_OUT after the encoding are padding. -/
theorem byteAt_encodeRsp_padding (v : Value) {k : Nat} (hk : (encodeRsp v).len.toNat ≤ k) (hk9 : k ≤ 9) :
    byteAt (encodeRsp v).bytes k = 0 := by
  rw [encodeRsp_len_toNat] at hk
  rw [byteAt_encodeRsp_bytes v (Nat.lt_succ_of_le hk9), List.getElem?_eq_none hk, Option.getD_none]

/-- Settles O9: minimality, the bits that a number of bytes can hold, and the zeros of ENC_OUT after the encoding. -/
theorem encodingIsShortestAndPaddedWithZeros : Obligations.EncodingIsShortestAndPaddedWithZeros := by
  refine ⟨fun v => ⟨isMinimal_refEnc v, valueOf_refEnc v, refEnc_getLast?_ne_zero, ?_⟩, rfl,
    fun v _ hk hk9 => byteAt_encodeRsp_padding v hk hk9⟩
  rintro s hs rfl
  exact refEnc_valueOf_length_le (ne_nil_of_isEncodedForm hs)

theorem refDec_of_isEncodedForm {s : List Byte} (hs : isEncodedForm s = true) :
    refDec s = .ok (valueOf s) s.length := by
  have hlen : s.length - 1 + 1 = s.length :=
    Nat.sub_add_cancel (List.length_pos_iff.mpr (ne_nil_of_isEncodedForm hs))
  exact refDec_eq_ok_iff.mpr ⟨_, terminator_of_isEncodedForm hs, by rw [hlen, List.take_length], hlen⟩

/-- Settles O11: `val` is a left inverse of ENC, and DEC consumes the whole of an Encoded form. -/
theorem encodingCanBeInverted : Obligations.EncodingCanBeInverted := by
  refine ⟨fun v => ⟨valueOf_refEnc v, ?_⟩, Function.LeftInverse.injective valueOf_refEnc⟩
  rw [refDec_of_isEncodedForm (isEncodedForm_refEnc v), valueOf_refEnc]

/-! ### The response (R96) -/

/-- A byte is its data bits and its continuation bit. -/
theorem byte_toNat_eq_or (b : Byte) : b.toNat = (dataBits b).toNat ||| if contBit b then 0x80 else 0 := by
  have hgroup : (dataBits b).toNat = b.toNat &&& 0x7F :=
    (dataBits_toNat b).trans (Nat.and_two_pow_sub_one_eq_mod _ 7).symm
  rw [hgroup, ← toNat_and_mask, ← Nat.and_or_distrib_left]
  exact (Nat.and_two_pow_sub_one_of_lt_two_pow b.isLt).symm

/-- Byte `k` of ENC(v): the group at weight 7k, with bit 7 set before the last byte. -/
theorem refEnc_byte_toNat {v k : Nat} {b : Byte} (h : (refEnc v)[k]? = some b) :
    b.toNat = (v >>> (7 * k) &&& 0x7F) ||| if k + 1 < (refEnc v).length then 0x80 else 0 := by
  have hgroup := groupIsSliceOfTheValue _ _ _ (isEncodedForm_refEnc v) h
  have hcont := contBit_of_isEncodedForm (isEncodedForm_refEnc v) h
  rw [valueOf_refEnc] at hgroup
  rw [byte_toNat_eq_or, hgroup, if_congr hcont rfl rfl]

theorem encodeRsp_byte_toNat (v : Value) {k : Nat} (hk : k < 10) :
    (byteAt (encodeRsp v).bytes k).toNat =
      if k + 1 < (refEnc v.toNat).length then ((v.toNat >>> (7 * k)) &&& 0x7F) ||| 0x80
      else if k + 1 = (refEnc v.toNat).length then (v.toNat >>> (7 * k)) &&& 0x7F
      else 0 := by
  rw [byteAt_encodeRsp_bytes v hk]
  rcases Nat.lt_or_ge k (refEnc v.toNat).length with hlt | hge
  · have hbyte := List.getElem?_eq_getElem hlt
    rw [hbyte, Option.getD_some, refEnc_byte_toNat hbyte]
    split
    case isTrue => rfl
    case isFalse h => rw [if_pos (by omega), Nat.or_zero]
  · rw [if_neg (by omega), if_neg (by omega), List.getElem?_eq_none hge]
    rfl

/-- Settles O5: the acceptance puts the response of ENC into the slot and starts the loop of O33. -/
theorem encodeResponseClosedForm : Obligations.EncodeResponseClosedForm := by
  intro v s h
  refine ⟨_, _, encodeAcceptedFillsTheSlot v s h, rfl, rfl, encodeRsp_len_toNat v, fun k hk => ?_, fun k hk hk9 => ?_,
    fun k hk => ?_, _, encodeLoopBuildsTheResponse v _ rfl, rfl⟩
  · have hk10 := hk.trans_le (refEnc_toNat_length_le v)
    rw [byteAt_encodeRsp_bytes v hk10, List.getElem?_eq_getElem hk, Option.getD_some]
  · exact byteAt_encodeRsp_padding v ((encodeRsp_len_toNat v).trans_le hk) hk9
  · rw [encodeRsp_byte_toNat v (Nat.lt_succ_of_le hk), refEnc_length]

end Sys2Proof.Machine
end

section
/-! PROOF. DECODE (41_decode.md): DEC (R111), decode after encode (R122), and the response by the terminator and the
value of the consumed part (R113 to R121). -/

namespace Sys2Proof.Machine

/-! ### DEC on a sequence (R111) -/

theorem dataBits_toNat_eq_and (b : Byte) : (dataBits b).toNat = b.toNat &&& 0x7F :=
  (dataBits_toNat b).trans (Nat.and_two_pow_sub_one_eq_mod _ 7).symm

/-- Settles O19: DEC by the terminator, and the value as the sum of its groups. -/
theorem decStopsAtFirstFinalByte : Obligations.DecStopsAtFirstFinalByte := by
  refine fun s => ⟨fun h => ?_, fun t b hb hfinal hcont => ?_⟩
  · exact refDec_eq_malformed_iff.mpr (terminator_eq_none_iff.mpr h)
  · refine refDec_eq_ok_iff.mpr ⟨t, terminator_eq_some_iff.mpr ⟨⟨b, hb, hfinal⟩, hcont⟩, ?_, rfl⟩
    simp only [valueOf, valueFrom_eq_sum, dataBits_toNat_eq_and]

/-- What DEC consumes is an Encoded form. -/
theorem isEncodedForm_take_of_terminator {s : List Byte} {t : Nat} (h : terminator s = some t) :
    isEncodedForm (s.take (t + 1)) = true := by
  obtain ⟨⟨b, hb, hfinal⟩, hcont⟩ := terminator_eq_some_iff.mp h
  rw [List.take_add_one, hb]
  exact (isEncodedForm_append_singleton _ b).mpr ⟨hcont, hfinal⟩

theorem consumed_of_refDec {s : List Byte} {x c : Nat} (h : refDec s = .ok x c) :
    isEncodedForm (s.take c) = true ∧ valueOf (s.take c) = x ∧ (s.take c).length = c := by
  obtain ⟨t, ht, rfl, rfl⟩ := refDec_eq_ok_iff.mp h
  exact ⟨isEncodedForm_take_of_terminator ht, rfl, List.length_take_of_le (terminator_lt ht)⟩

/-- Bytes after a terminated sequence do not change what DEC makes of it. -/
theorem refDec_append {s : List Byte} {x c : Nat} (h : refDec s = .ok x c) (r : List Byte) :
    refDec (s ++ r) = .ok x c := by
  obtain ⟨t, ht, rfl, rfl⟩ := refDec_eq_ok_iff.mp h
  exact refDec_eq_ok_iff.mpr
    ⟨t, terminator_append ht r, by rw [List.take_append_of_le_length (terminator_lt ht)], rfl⟩

theorem refDec_refEnc_append (v : Nat) (r : List Byte) : refDec (refEnc v ++ r) = .ok v (refEnc v).length := by
  have h := refDec_append (refDec_of_isEncodedForm (isEncodedForm_refEnc v)) r
  rwa [valueOf_refEnc] at h

/-- An Encoded form that is not minimal is longer than the encoding of its value. -/
theorem refEnc_valueOf_length_lt {s : List Byte} (hs : isEncodedForm s = true) (hmin : isMinimal s = false) :
    (refEnc (valueOf s)).length < s.length := by
  refine lt_of_le_of_ne (refEnc_valueOf_length_le (ne_nil_of_isEncodedForm hs)) fun h => ?_
  rw [(isMinimal_iff_length hs).mpr h.symm] at hmin
  cases hmin

/-! ### The response by DEC (R121) -/

theorem decodeRsp_of_malformed {buf : DecIn} {n : Len} (h : refDec (provided buf n) = .malformed) :
    decodeRsp buf n = raiseError .malformedEncoding := by
  rw [decodeRsp, h]

theorem decodeRsp_of_ok {buf : DecIn} {n : Len} {x c : Nat} (h : refDec (provided buf n) = .ok x c) :
    decodeRsp buf n = finishDecode x c := by
  rw [decodeRsp, h]

/-- An EMPTY slot accepts DECODE and becomes FULL of its response. -/
theorem exec_decode_slot {s : State} (hs : s.dec.slot = .empty) {buf : DecIn} {n : Len} {r : DecRsp}
    (hr : decodeRsp buf n = r) : ∃ t, exec (.decode n buf) s = .next t ∧ t.dec.slot = .full r :=
  ⟨_, decodeAcceptedFillsTheSlot n buf s hs, congrArg Slot.full hr⟩

/-- Settles O29: DEC consumes exactly the encoding, whatever follows it; and what it consumes is an Encoded form of the
value, so the value's encoding when it is minimal, and longer than that otherwise. -/
theorem decodeInvertsEncode : Obligations.DecodeInvertsEncode := by
  refine ⟨refDec_refEnc_append, fun v buf n s hs hprefix => exec_decode_slot hs ?_, fun s x c h => ?_⟩
  · rw [encodeRsp_encoding] at hprefix
    have hdec := refDec_refEnc_append v.toNat ((provided buf n).drop (encodeRsp v).len.toNat)
    rw [← hprefix, List.take_append_drop, hprefix] at hdec
    rw [decodeRsp_of_ok hdec, finishDecode_fits v.isLt, BitVec.ofNat_toNat, BitVec.setWidth_eq]
    rfl
  · obtain ⟨hform, rfl, hlen⟩ := consumed_of_refDec h
    refine ⟨fun hmin => (isMinimal_and_valueOf_iff.mp ⟨hmin, rfl⟩).symm, fun hmin => ?_⟩
    exact (refEnc_valueOf_length_lt hform hmin).trans_eq hlen

/-! ### The terminator of a request -/

theorem forall_mem_provided {buf : DecIn} {n : Len} {P : Byte → Prop} :
    (∀ b ∈ provided buf n, P b) ↔ ∀ i < n.toNat, P (byteAt buf i) := by
  simp [provided]

theorem provided_take {buf : DecIn} {n : Len} {k : Nat} (h : k ≤ n.toNat) :
    (provided buf n).take k = (List.range k).map (byteAt buf) := by
  rw [provided, ← List.map_take, List.take_range, min_eq_left h]

theorem terminator_provided_iff {buf : DecIn} {n : Len} {t : Nat} :
    terminator (provided buf n) = some t ↔
      t < n.toNat ∧ contBit (byteAt buf t) = false ∧ ∀ i < t, contBit (byteAt buf i) = true := by
  rw [terminator_eq_some_iff, provided_getElem?]
  split
  case isTrue h => simp [provided_take h.le, h]
  case isFalse h => simp [h]

theorem consumed_getElem? {buf : DecIn} {n : Len} {t i : Nat} (ht : terminator (provided buf n) = some t)
    (hi : i ≤ t) : ((provided buf n).take (t + 1))[i]? = some (byteAt buf i) := by
  rw [List.getElem?_take_of_lt (Nat.lt_succ_of_le hi), provided_getElem?,
    if_pos (hi.trans_lt (succ_terminator_le ht))]

/-- The response of a terminated request depends on the bytes up to the terminator only (R113). -/
theorem decodeRsp_congr_of_terminator {buf buf' : DecIn} {n n' : Len} {t : Nat}
    (ht : terminator (provided buf n) = some t) (hn' : t < n'.toNat) (h : ∀ i ≤ t, byteAt buf' i = byteAt buf i) :
    decodeRsp buf' n' = decodeRsp buf n := by
  obtain ⟨hn, hfinal, hcont⟩ := terminator_provided_iff.mp ht
  have ht' : terminator (provided buf' n') = some t :=
    terminator_provided_iff.mpr ⟨hn', by rwa [h t le_rfl], fun i hi => by rw [h i hi.le, hcont i hi]⟩
  have hbytes : (List.range (t + 1)).map (byteAt buf') = (List.range (t + 1)).map (byteAt buf) :=
    List.map_congr_left fun i hi => h i (Nat.le_of_lt_succ (List.mem_range.mp hi))
  rw [decodeRsp_of_terminator ht', decodeRsp_of_terminator ht, provided_take hn', provided_take hn, hbytes]

/-- Settles O21: position t is the terminator of both requests. -/
theorem bytesAfterTheTerminatorAreNotExamined : Obligations.BytesAfterTheTerminatorAreNotExamined := by
  intro buf buf' n n' t hn hn' hcont hfinal h
  have ht : terminator (provided buf n) = some t := terminator_provided_iff.mpr ⟨hn, hfinal, hcont⟩
  refine ⟨?_, decodeRsp_congr_of_terminator ht hn' h⟩
  rw [decodeRsp_of_terminator ht, provided_take hn]

theorem decodeRsp_congr {buf buf' : DecIn} {n : Len} (h : ∀ i < n.toNat, byteAt buf i = byteAt buf' i) :
    decodeRsp buf n = decodeRsp buf' n := by
  rw [decodeRsp, provided_congr h, ← decodeRsp]

theorem toNat_ofNat_of_refDec {buf : DecIn} {n : Len} {x c : Nat} (h : refDec (provided buf n) = .ok x c) :
    (BitVec.ofNat 4 c).toNat = c := by
  obtain ⟨t, ht, -, rfl⟩ := refDec_eq_ok_iff.mp h
  exact Nat.mod_eq_of_lt ((succ_terminator_le ht).trans_lt n.isLt)

/-- Settles O20: the accepted response case by case of DEC, and the bytes that DEC looks at. -/
theorem decodeResponseFunction : Obligations.DecodeResponseFunction := by
  refine ⟨fun buf n s hs => ?_, fun _ _ _ => decodeRsp_congr, fun buf buf' n t ht h => ?_⟩
  · refine ⟨_, _, decodeAcceptedFillsTheSlot n buf s hs, rfl, fun hdec => ?_, fun x c hdec hx => ?_,
      fun x c hdec hx => ?_⟩
    · rw [decodeRsp_of_malformed hdec]
      exact ⟨rfl, rfl, rfl⟩
    · rw [decodeRsp_of_ok hdec, finishDecode_overflows hx]
      exact ⟨rfl, rfl, rfl⟩
    · rw [decodeRsp_of_ok hdec, finishDecode_fits hx]
      exact ⟨rfl, toNat_ofNat_of_refDec hdec, Nat.mod_eq_of_lt hx⟩
  · exact (decodeRsp_congr_of_terminator ht (succ_terminator_le ht) fun i hi => (h i hi).symm).symm

/-! ### The three outcomes (R114, R116 to R120) -/

/-- A terminated request whose value fits. -/
theorem decodeRsp_of_terminator_of_fits {buf : DecIn} {n : Len} {t : Nat} (ht : terminator (provided buf n) = some t)
    (hx : valueOf ((provided buf n).take (t + 1)) < 2 ^ 64) :
    (decodeRsp buf n).status = .ok ∧ (decodeRsp buf n).value.toNat = valueOf ((provided buf n).take (t + 1)) ∧
    (decodeRsp buf n).consumed.toNat = t + 1 := by
  rw [decodeRsp_of_terminator ht, finishDecode_fits hx]
  exact ⟨rfl, Nat.mod_eq_of_lt hx, Nat.mod_eq_of_lt ((succ_terminator_le ht).trans_lt n.isLt)⟩

/-- A terminated request whose value does not fit. -/
theorem decodeRsp_of_terminator_of_overflows {buf : DecIn} {n : Len} {t : Nat}
    (ht : terminator (provided buf n) = some t) (hx : 2 ^ 64 ≤ valueOf ((provided buf n).take (t + 1))) :
    decodeRsp buf n = raiseError .valueOverflow := by
  rw [decodeRsp_of_terminator ht, finishDecode_overflows hx]

/-- Everything the response can be: no final byte, a value that does not fit, or a value that fits. -/
theorem decodeRsp_cases (buf : DecIn) (n : Len) :
    (terminator (provided buf n) = none ∧ decodeRsp buf n = raiseError .malformedEncoding) ∨
    (∃ t, terminator (provided buf n) = some t ∧ 2 ^ 64 ≤ valueOf ((provided buf n).take (t + 1)) ∧
      decodeRsp buf n = raiseError .valueOverflow) ∨
    (∃ t, terminator (provided buf n) = some t ∧ valueOf ((provided buf n).take (t + 1)) < 2 ^ 64 ∧
      (decodeRsp buf n).status = .ok) := by
  cases ht : terminator (provided buf n) with
  | none => exact .inl ⟨rfl, decodeRsp_of_malformed (refDec_eq_malformed_iff.mpr ht)⟩
  | some t =>
    rcases Nat.lt_or_ge (valueOf ((provided buf n).take (t + 1))) (2 ^ 64) with hx | hx
    · exact .inr (.inr ⟨t, rfl, hx, (decodeRsp_of_terminator_of_fits ht hx).1⟩)
    · exact .inr (.inl ⟨t, rfl, hx, decodeRsp_of_terminator_of_overflows ht hx⟩)

theorem status_eq_valueOverflow_iff {buf : DecIn} {n : Len} : (decodeRsp buf n).status = .valueOverflow ↔
    ∃ t, terminator (provided buf n) = some t ∧ 2 ^ 64 ≤ valueOf ((provided buf n).take (t + 1)) := by
  constructor
  · intro h
    rcases decodeRsp_cases buf n with ⟨-, hr⟩ | ⟨t, ht, hx, -⟩ | ⟨t, -, -, hr⟩
    · rw [hr] at h; cases h
    · exact ⟨t, ht, hx⟩
    · rw [hr] at h; cases h
  · rintro ⟨t, ht, hx⟩
    rw [decodeRsp_of_terminator_of_overflows ht hx]
    rfl

theorem status_eq_ok_iff {buf : DecIn} {n : Len} : (decodeRsp buf n).status = .ok ↔
    ∃ t, terminator (provided buf n) = some t ∧ valueOf ((provided buf n).take (t + 1)) < 2 ^ 64 := by
  constructor
  · intro h
    rcases decodeRsp_cases buf n with ⟨-, hr⟩ | ⟨t, -, -, hr⟩ | ⟨t, ht, hx, -⟩
    · rw [hr] at h; cases h
    · rw [hr] at h; cases h
    · exact ⟨t, ht, hx⟩
  · rintro ⟨t, ht, hx⟩
    exact (decodeRsp_of_terminator_of_fits ht hx).1

/-- Settles O22: an OK response is that of a terminated request. -/
theorem consumedIsTerminatorPlusOne : Obligations.ConsumedIsTerminatorPlusOne := by
  intro buf n hok
  obtain ⟨t, ht, hx⟩ := status_eq_ok_iff.mp hok
  obtain ⟨-, -, hconsumed⟩ := decodeRsp_of_terminator_of_fits ht hx
  obtain ⟨hn, hfinal, hcont⟩ := terminator_provided_iff.mp ht
  rw [hconsumed, Nat.add_sub_cancel]
  exact ⟨ht, Nat.le_add_left 1 t, hn, hfinal, fun i hi => hcont i (Nat.lt_of_succ_lt_succ hi)⟩

/-- Settles O23: the empty sequence has no final byte. -/
theorem emptyInputIsMalformed : Obligations.EmptyInputIsMalformed :=
  fun buf _ hs => exec_decode_slot hs (decodeRsp_of_isEmptyInput ((isEmptyInput_provided_iff buf 0).mpr rfl))

theorem decodeRsp_of_forall_contBit {buf : DecIn} {n : Len} (h : ∀ i < n.toNat, contBit (byteAt buf i) = true) :
    decodeRsp buf n = raiseError .malformedEncoding :=
  decodeRsp_of_unterminated (forall_mem_provided.mpr h)

/-- Settles O24: only the n provided bytes are looked at. -/
theorem unterminatedInputIsMalformed : Obligations.UnterminatedInputIsMalformed :=
  fun _ _ _ hs _ hcont => exec_decode_slot hs (decodeRsp_of_forall_contBit hcont)

/-- Settles O30: the only final byte of an encoding is its last. -/
theorem truncatedEncodingIsMalformed : Obligations.TruncatedEncodingIsMalformed := by
  intro v buf n hn hprovided
  rw [encodeRsp_len_toNat] at hn
  rw [encodeRsp_encoding] at hprovided
  have hterm := terminator_of_isEncodedForm (isEncodedForm_refEnc v.toNat)
  have hnone := terminator_take_of_le hterm (Nat.le_sub_one_of_lt hn)
  exact decodeRsp_of_malformed (refDec_eq_malformed_iff.mpr (hprovided ▸ hnone))

/-! ### Minimality is not checked (R118) -/

theorem dataBits_eq_of_valueOf_eq {s r : List Byte} {i : Nat} {b c : Byte} (h : valueOf s = valueOf r)
    (hb : s[i]? = some b) (hc : r[i]? = some c) : dataBits b = dataBits c :=
  BitVec.eq_of_toNat_eq (by rw [group_eq_slice hb, group_eq_slice hc, h])

/-- The groups past the end of the value's encoding are zero. -/
theorem dataBits_eq_zero_of_refEnc_length_le {s : List Byte} {i : Nat} {b : Byte} (hb : s[i]? = some b)
    (hi : (refEnc (valueOf s)).length ≤ i) : dataBits b = 0 := by
  have hlt : valueOf s < 2 ^ (7 * i) := by
    rw [← not_lt, lt_refEnc_length_iff, not_or, not_le] at hi
    exact hi.2
  apply BitVec.eq_of_toNat_eq
  rw [group_eq_slice hb, Nat.div_eq_of_lt hlt]
  rfl

/-- Settles O25: the consumed part is an Encoded form of the value, and an Encoded form and the encoding have the same
groups, for both have the same value. -/
theorem nonMinimalInputIsAccepted : Obligations.NonMinimalInputIsAccepted := by
  refine ⟨fun buf n t ht hmin hx => ?_, by decide, by decide⟩
  obtain ⟨hstatus, hvalue, hconsumed⟩ := decodeRsp_of_terminator_of_fits ht hx
  have hlen : ((provided buf n).take (t + 1)).length = t + 1 := List.length_take_of_le (terminator_lt ht)
  have hshort := refEnc_valueOf_length_lt (isEncodedForm_take_of_terminator ht) hmin
  rw [hlen] at hshort
  rw [hvalue]
  refine ⟨hstatus, rfl, hconsumed, hshort, fun i b hb => ?_, fun i hi hit => ?_⟩
  · have hi : i ≤ t := Nat.le_of_lt_succ ((List.getElem?_eq_some_iff.mp hb).1.trans hshort)
    exact dataBits_eq_of_valueOf_eq (valueOf_refEnc _) hb (consumed_getElem? ht hi)
  · exact dataBits_eq_zero_of_refEnc_length_le (consumed_getElem? ht hit) hi

/-! ### Overflow (R119) and the order of the causes (R120) -/

theorem extract_six_bits_ne_zero_iff (b : Byte) : b.extractLsb' 1 6 ≠ 0 ↔ 2 ≤ (dataBits b).toNat := by
  have hbits : b.extractLsb' 1 6 ≠ 0 ↔ b.toNat / 2 % 64 ≠ 0 := by
    simp [← BitVec.toNat_inj, Nat.shiftRight_eq_div_pow]
  rw [hbits, dataBits_toNat]
  omega

/-- The value reaches the weight of its highest group and stays below the next one: a value of `2 ^ 64` or more has that
group at position 9, and then it is not 1, or at a later position. -/
theorem exists_high_group {s : List Byte} (h : 2 ^ 64 ≤ valueOf s) :
    ∃ i b, s[i]? = some b ∧ ((i = 9 ∧ b.extractLsb' 1 6 ≠ 0) ∨ (10 ≤ i ∧ dataBits b ≠ 0)) := by
  have hne : s ≠ [] := by rintro rfl; simp at h
  have hlong : 9 < (refEnc (valueOf s)).length := lt_refEnc_length_iff.mpr (.inr (le_trans (by decide) h))
  have hle := refEnc_valueOf_length_le hne
  obtain ⟨i, hi⟩ : ∃ i, (refEnc (valueOf s)).length = i + 1 := Nat.exists_eq_add_one.mpr (by omega)
  obtain ⟨hlow, hhigh⟩ := (refEnc_length_eq_iff (Nat.add_one_pos i)).mp hi
  have hb : s[i]? = some s[i] := List.getElem?_eq_getElem (by omega)
  have hgroup := group_eq_slice hb
  refine ⟨i, s[i], hb, ?_⟩
  rcases Nat.lt_or_eq_of_le (show 9 ≤ i by omega) with h10 | rfl
  · have hlow' : 2 ^ (7 * i) ≤ valueOf s := hlow.resolve_left (by omega)
    have hpos : 0 < valueOf s / 2 ^ (7 * i) := Nat.div_pos hlow' (Nat.two_pow_pos _)
    have hlt : valueOf s / 2 ^ (7 * i) < 128 :=
      Nat.div_lt_of_lt_mul (by rwa [Nat.mul_succ, Nat.pow_add] at hhigh)
    refine .inr ⟨h10, fun h0 => ?_⟩
    rw [h0, Nat.mod_eq_of_lt hlt] at hgroup
    exact hpos.ne hgroup
  · refine .inl ⟨rfl, (extract_six_bits_ne_zero_iff _).mpr ?_⟩
    omega

theorem two_pow_64_le_consumed_iff {buf : DecIn} {n : Len} {t : Nat} (ht : terminator (provided buf n) = some t) :
    2 ^ 64 ≤ valueOf ((provided buf n).take (t + 1)) ↔
      (9 ≤ t ∧ (byteAt buf 9).extractLsb' 1 6 ≠ 0) ∨ ∃ i, 10 ≤ i ∧ i ≤ t ∧ dataBits (byteAt buf i) ≠ 0 := by
  constructor
  · intro hx
    obtain ⟨i, b, hb, hhigh⟩ := exists_high_group hx
    have hit : i ≤ t := by
      have hlen := (List.getElem?_eq_some_iff.mp hb).1
      rw [List.length_take] at hlen
      omega
    obtain rfl : byteAt buf i = b := Option.some.inj ((consumed_getElem? ht hit).symm.trans hb)
    rcases hhigh with ⟨rfl, hne⟩ | ⟨hi, hne⟩
    · exact .inl ⟨hit, hne⟩
    · exact .inr ⟨i, hi, hit, hne⟩
  · rintro (⟨hit, hne⟩ | ⟨i, hi, hit, hne⟩)
    · exact two_pow_64_le_valueOf (consumed_getElem? ht hit) (.inl ⟨rfl, hne⟩)
    · exact two_pow_64_le_valueOf (consumed_getElem? ht hit) (.inr ⟨hi, hne⟩)

/-- Settles O26: the outcomes by the value, and a value does not fit because of one of its data bits. -/
theorem overflowExactlyWhenTheValueDoesNotFit : Obligations.OverflowExactlyWhenTheValueDoesNotFit := by
  refine fun buf n => ⟨status_eq_valueOverflow_iff, status_eq_valueOverflow_iff.trans ?_, fun hok => ?_⟩
  · exact exists_congr fun t => and_congr_right two_pow_64_le_consumed_iff
  · obtain ⟨t, ht, hx⟩ := status_eq_ok_iff.mp hok
    obtain ⟨-, hvalue, -⟩ := decodeRsp_of_terminator_of_fits ht hx
    exact ⟨t, ht, hvalue⟩

/-- Settles O27: an empty request and one with no final byte are unterminated; of a terminated one the value decides. -/
theorem errorResponsesCarryZerosInPriorityOrder : Obligations.ErrorResponsesCarryZerosInPriorityOrder := by
  refine ⟨fun buf n hne => ?_, fun buf n => ?_, by decide⟩
  · rcases decodeRsp_cases buf n with ⟨-, hr⟩ | ⟨t, -, -, hr⟩ | ⟨t, -, -, hok⟩
    · rw [hr]; exact ⟨rfl, rfl⟩
    · rw [hr]; exact ⟨rfl, rfl⟩
    · exact absurd hok hne
  · have hnone : terminator (provided buf n) = none ↔ ∀ i < n.toNat, contBit (byteAt buf i) = true :=
      terminator_eq_none_iff.trans forall_mem_provided
    cases ht : terminator (provided buf n) with
    | none =>
      rw [decodeRsp_of_forall_contBit (hnone.mp ht), if_pos (hnone.mp ht), ite_self]
      rfl
    | some t =>
      have hn : n ≠ 0 := by
        rintro rfl
        exact Nat.not_lt_zero t (terminator_provided_iff.mp ht).1
      have hfinal : ¬∀ i < n.toNat, contBit (byteAt buf i) = true := fun h => by
        rw [hnone.mpr h] at ht
        cases ht
      rw [if_neg hn, if_neg hfinal, consumedPart_of_terminator ht]
      split
      case isTrue hx => rw [decodeRsp_of_terminator_of_overflows ht hx]; rfl
      case isFalse hx => exact (decodeRsp_of_terminator_of_fits ht (not_le.mp hx)).1

end Sys2Proof.Machine
end

section
/-! PROOF. The loops that build the response of DECODE (41_decode.md): the decoder's (R112), and its narrow form
(R126). -/

namespace Sys2Proof.Machine

/-! ### The loop (R112) -/

/-- How many passes a decoder's loop can still make: one a byte that is left, and the end test. -/
def decPassesLeft : DecWork → Nat
  | .looping _ n _ i => n.toNat + 1 - i
  | .idle => 0
  | .done _ => 0

theorem decPassesLeft_pass {w w' : DecWork} (hw : decWorkNext w = .ok w') : decPassesLeft w' ≤ decPassesLeft w - 1 := by
  cases w with
  | idle => cases hw; exact Nat.zero_le _
  | done r => cases hw; exact Nat.zero_le _
  | looping buf n acc i =>
    rw [decWorkNext] at hw
    split at hw
    case isTrue => cases hw; exact Nat.zero_le _
    case isFalse =>
      split at hw
      case h_1 b _ =>
        cases hw
        cases contBit b
        · exact Nat.zero_le _
        · exact (Nat.sub_sub (n.toNat + 1) i 1).ge
      case h_2 => cases hw

/-- Working registers that are consistent with a slot `FULL(r)` reach `r`. The slot is the lemma's own, for no pass
reads one. -/
theorem decLoopRun_of_decConsistent {k : Nat} {r : DecRsp} {s : State}
    (hc : decConsistent { s.dec with slot := .full r }) (hk : decPassesLeft s.dec.work ≤ k) :
    decLoopRun k s = .next { s with dec := { s.dec with work := .done r } } := by
  induction k generalizing s with
  | zero =>
    obtain ⟨enc, ⟨slot, wait, draws, work⟩, inputs, encLog, decLog⟩ := s
    cases work with
    | idle => cases hc
    | done r' =>
      obtain h | h := hc
      · cases h
      · cases h; rfl
    | looping buf n acc i =>
      obtain ⟨hi, -⟩ := hc
      exact absurd (Nat.le_of_sub_eq_zero (Nat.eq_zero_of_le_zero hk)) (Nat.lt_succ_of_le hi).not_ge
  | succ k ih =>
    obtain ⟨w, hw⟩ := decWorkNext_ok hc
    have hleft := decPassesLeft_pass hw
    rw [decLoopRun, runDecLoop_eq, hw, andThen_next]
    exact ih (decConsistent_pass hc hw) (hleft.trans (Nat.sub_le_of_le_add hk))

/-- Settles O32: the loop starts consistent with the response of DECODE, and n is at most 15. -/
theorem decodeLoopBuildsTheResponse : Obligations.DecodeLoopBuildsTheResponse := by
  intro buf n s h
  apply decLoopRun_of_decConsistent
  · have hstart := decConsistent_start (u := s.dec) (q := { len := n, buf := buf }) 0
    rw [decConsistent, h]
    exact hstart
  · rw [h]
    exact n.isLt

/-! ### The narrow accumulator (R126) -/

theorem ofNat_addGroup (acc : Nat) (d : Group) (i : Nat) :
    BitVec.ofNat 64 acc ||| BitVec.ofNat 64 (d.toNat <<< (7 * i)) = BitVec.ofNat 64 (addGroup acc d i) :=
  (BitVec.ofNat_or ..).symm

/-- An OR reaches a power of two exactly when one of its operands does. -/
theorem two_pow_le_or_iff {n x y : Nat} : 2 ^ n ≤ x ||| y ↔ 2 ^ n ≤ x ∨ 2 ^ n ≤ y := by
  constructor
  · intro h
    by_contra! hlt
    exact absurd (Nat.or_lt_two_pow hlt.1 hlt.2) h.not_gt
  · rintro (h | h)
    · exact h.trans Nat.left_le_or
    · exact h.trans Nat.right_le_or

/-- After the bytes `p` the narrow form holds the low 64 bits of their value and whether it does not fit; one more byte
makes that so for one byte more, or ends the scan with DECODE's response. -/
theorem narrowScan_cons (p : List Byte) (b : Byte) (s : List Byte) :
    narrowScan p.length (BitVec.ofNat 64 (valueOf p)) (decide (2 ^ 64 ≤ valueOf p)) (b :: s) =
      if contBit b then
        narrowScan (p ++ [b]).length (BitVec.ofNat 64 (valueOf (p ++ [b]))) (decide (2 ^ 64 ≤ valueOf (p ++ [b]))) s
      else finishDecode (valueOf (p ++ [b])) (p ++ [b]).length := by
  have hmark : (decide (2 ^ 64 ≤ valueOf p) || decide (2 ^ 64 ≤ (dataBits b).toNat <<< (7 * p.length))) =
      decide (2 ^ 64 ≤ valueOf (p ++ [b])) := by
    rw [← addGroup_valueOf, addGroup, ← Bool.decide_or, decide_eq_decide]
    exact two_pow_le_or_iff.symm
  rw [narrowScan]
  simp only [ofNat_addGroup, addGroup_valueOf, hmark, List.length_append, List.length_singleton, decide_eq_true_iff]
  rfl

theorem narrowScan_of_unterminated {s : List Byte} (h : ∀ b ∈ s, contBit b = true) (i : Nat) (acc : Value)
    (mark : Bool) : narrowScan i acc mark s = raiseError .malformedEncoding := by
  induction s generalizing i acc mark with
  | nil => rfl
  | cons b s ih =>
    rw [List.forall_mem_cons] at h
    rw [narrowScan, if_pos h.1]
    exact ih h.2 _ _ _

theorem narrowScan_of_terminator {s : List Byte} {t : Nat} (h : terminator s = some t) (p : List Byte) :
    narrowScan p.length (BitVec.ofNat 64 (valueOf p)) (decide (2 ^ 64 ≤ valueOf p)) s =
      finishDecode (valueOf (p ++ s.take (t + 1))) (p.length + (t + 1)) := by
  induction s generalizing t p with
  | nil => cases h
  | cons b s ih =>
    rw [narrowScan_cons]
    cases hb : contBit b
    · obtain rfl : 0 = t := by simpa [terminator, hb] using h
      simp
    · obtain ⟨t', ht', rfl⟩ : ∃ t', terminator s = some t' ∧ t' + 1 = t := by simpa [terminator, hb] using h
      rw [if_pos rfl, ih ht']
      simp [Nat.add_assoc, Nat.add_comm 1]

/-- Settles O31: the scan from no bytes on, whose value 0 fits. -/
theorem narrowAccumulatorGivesTheSameResponses : Obligations.NarrowAccumulatorGivesTheSameResponses := by
  intro buf n
  cases ht : terminator (provided buf n) with
  | none =>
    have hcont := terminator_eq_none_iff.mp ht
    rw [narrowScan_of_unterminated hcont, decodeRsp_of_unterminated hcont]
  | some t =>
    have hscan := narrowScan_of_terminator ht []
    rw [List.nil_append, List.length_nil, Nat.zero_add] at hscan
    rw [decodeRsp_of_terminator ht]
    exact hscan

end Sys2Proof.Machine
end

section
/-! PROOF. The helpers of 42_helpers.md: the byte-length helper counts bytes as `bit_length` counts bits, and the binary
printer writes a cell of nine characters for each byte and leaves out the last space. -/

namespace Sys2Proof.Machine

/-! ### The byte-length helper (R141, R142) -/

theorem byteLen_zero : byteLen 0 = 0 ∨ byteLen 0 = 1 :=
  Nat.le_one_iff_eq_zero_or_eq_one.mp (Nat.le_of_lt_succ Config.byteLenZero.isLt)

theorem byteLen_le_iff {v : Nat} (hv : 0 < v) (n : Nat) : byteLen v ≤ n ↔ v < 2 ^ (8 * n) := by
  rw [← bitLength_le_iff, byteLen, if_neg hv.ne']
  omega

theorem byteLen_pos {v : Nat} (hv : 0 < v) : 0 < byteLen v := by
  rw [← not_le, byteLen_le_iff hv]
  exact Nat.not_lt.mpr hv

theorem byteLen_bounds {v : Nat} (hv : 0 < v) : v < 2 ^ (8 * byteLen v) ∧ 2 ^ (8 * (byteLen v - 1)) ≤ v := by
  have hpos := byteLen_pos hv
  have hlow := byteLen_le_iff hv (byteLen v - 1)
  exact ⟨(byteLen_le_iff hv _).mp le_rfl, by omega⟩

/-! ### The binary printer (R143) -/

@[simp] theorem binaryOf_length (b : Byte) : (binaryOf b).length = 8 := rfl

theorem binaryOf_getElem? (b : Byte) {j : Nat} (hj : j < 8) :
    (binaryOf b)[j]? = some (if b.getLsbD (7 - j) then '1' else '0') := by
  interval_cases j <;> rfl

/-- What the printer writes for a byte that is not the last: its characters and the space after them. -/
def binaryCell (b : Byte) : List Char := binaryOf b ++ [' ']

@[simp] theorem binaryCell_length (b : Byte) : (binaryCell b).length = 9 := rfl

theorem binaryCell_getElem?_of_lt (b : Byte) {j : Nat} (hj : j < 8) :
    (binaryCell b)[j]? = some (if b.getLsbD (7 - j) then '1' else '0') := by
  rw [binaryCell, List.getElem?_append_left (by simpa using hj), binaryOf_getElem? b hj]

theorem binaryCell_getElem?_eight (b : Byte) : (binaryCell b)[8]? = some ' ' := rfl

theorem flatMap_binaryCell_length (s : List Byte) : (s.flatMap binaryCell).length = 9 * s.length := by
  simp [List.length_flatMap, Nat.mul_comm]

theorem flatMap_binaryCell_getElem? {s : List Byte} {k j : Nat} {b : Byte} (hb : s[k]? = some b) (hj : j < 9) :
    (s.flatMap binaryCell)[9 * k + j]? = (binaryCell b)[j]? := by
  induction s generalizing k with
  | nil => simp at hb
  | cons a s ih =>
    rw [List.flatMap_cons]
    cases k with
    | zero =>
      obtain rfl : a = b := by simpa using hb
      rw [Nat.mul_zero, Nat.zero_add, List.getElem?_append_left (by simpa using hj)]
    | succ k =>
      rw [List.getElem?_append_right (by simp; omega), binaryCell_length, ← ih (by simpa using hb)]
      congr 1
      omega

theorem binFmt_append_space {s : List Byte} (hs : s ≠ []) : binFmt s ++ [' '] = s.flatMap binaryCell := by
  induction s with
  | nil => exact absurd rfl hs
  | cons a s ih =>
    cases s with
    | nil => simp [binFmt, binaryCell]
    | cons c s =>
      rw [List.flatMap_cons, ← ih (List.cons_ne_nil c s)]
      simp [binFmt, binaryCell, List.intercalate_cons_cons]

theorem binFmt_length {s : List Byte} (hs : s ≠ []) : (binFmt s).length + 1 = 9 * s.length := by
  rw [← flatMap_binaryCell_length, ← binFmt_append_space hs, List.length_append, List.length_singleton]

theorem binFmt_getElem? {s : List Byte} {k j : Nat} {b : Byte} (hb : s[k]? = some b) (hj : j < 9)
    (hlast : 9 * k + j + 1 < 9 * s.length) : (binFmt s)[9 * k + j]? = (binaryCell b)[j]? := by
  have hs : s ≠ [] := by rintro rfl; simp at hb
  have hlen := binFmt_length hs
  rw [← flatMap_binaryCell_getElem? hb hj, ← binFmt_append_space hs, List.getElem?_append_left (by omega)]

/-- Settles O60: the bits that a number of bytes can hold, and the cells of the printer. -/
theorem helperFunctions : Obligations.HelperFunctions := by
  refine ⟨fun v hv => byteLen_bounds hv, byteLen_zero, by decide, by decide, by decide, by decide, rfl,
    fun s hs => binFmt_length hs, fun s k j b hb hj => ?_, fun s k hk => ?_⟩
  · obtain ⟨hk, -⟩ := List.getElem?_eq_some_iff.mp hb
    rw [binFmt_getElem? hb (by omega) (by omega), binaryCell_getElem?_of_lt b hj]
  · have hb := List.getElem?_eq_getElem (Nat.lt_of_succ_lt hk)
    rw [binFmt_getElem? hb (by decide) (by omega), binaryCell_getElem?_eight]

end Sys2Proof.Machine
end

section
/-! PROOF. The adapter around the block (60_exceptions.md R151): the integers of the encoder's domain, which the port
carries as themselves, and all others. -/

namespace Sys2Proof.Machine

theorem presentInteger_of_inDomain {v : Int} (h0 : 0 ≤ v) (h1 : v < 2 ^ 64) (s : State) :
    presentInteger v s = .next { s with inputs := presentEncode (BitVec.ofInt 64 v) :: s.inputs } :=
  if_pos ⟨h0, h1⟩

theorem presentInteger_of_outOfDomain {v : Int} (h : v < 0 ∨ 2 ^ 64 ≤ v) (s : State) :
    presentInteger v s = .refused (.invalidInput v) := by
  refine if_neg fun ⟨h0, h1⟩ => ?_
  rw [Config.valueBits] at h1
  omega

/-- The port neither truncates an integer of the domain nor reads it as two's complement (R151). -/
theorem toNat_ofInt_of_inDomain {v : Int} (h0 : 0 ≤ v) (h1 : v < 2 ^ 64) : ((BitVec.ofInt 64 v).toNat : Int) = v := by
  rw [BitVec.toNat_ofInt, Int.toNat_of_nonneg (Int.emod_nonneg v (by decide))]
  exact Int.emod_eq_of_lt h0 h1

/-- Settles O58: the two branches of the adapter; the port carries an integer of the domain unchanged, and only the
planned inputs differ. -/
theorem adapterRejectsOutOfDomainIntegers : Obligations.AdapterRejectsOutOfDomainIntegers := by
  refine fun v s => ⟨fun h => presentInteger_of_outOfDomain h s, fun h0 h1 => ?_⟩
  exact ⟨_, presentInteger_of_inDomain h0 h1 s, rfl, toNat_ofInt_of_inDomain h0 h1, rfl, rfl, rfl, rfl⟩

end Sys2Proof.Machine
end

section
/-! PROOF. What one edge does to a unit by its side of the ports, said once for both units (70_reset_and_hazards.md R186),
and what follows for reset and for a slot that is FULL (R181, R182, R187 to R189, R191). -/

namespace Sys2Proof.Machine

/-! ### A FULL slot turns requests away -/

/-- Settles O4: the FULL branch of ENCODE. -/
theorem encodeWaitsWhileTheSlotIsFull : Obligations.EncodeWaitsWhileTheSlotIsFull := by
  intro v r s h
  rw [exec, execEncode, h]

/-- Settles O18: the FULL branch of DECODE. -/
theorem decodeWaitsWhileTheSlotIsFull : Obligations.DecodeWaitsWhileTheSlotIsFull := by
  intro n buf r s h
  rw [exec, execDecode, h]

/-! ### What a unit presents -/

section unit
variable {α ω : Type} {u : UnitState α ω}

/-- The response that a unit presents while `rst` is 0: that of a FULL slot, once its latency is over. -/
def UnitState.presented (u : UnitState α ω) : Option α :=
  match u.slot with
  | .full r => if u.wait = 0 then some r else none
  | .empty => none

theorem UnitState.presented_eq_some_iff {r : α} : u.presented = some r ↔ u.slot = .full r ∧ u.wait = 0 := by
  rw [presented]
  cases u.slot <;> simp [and_comm]

theorem UnitState.presented_of_empty (h : u.slot = .empty) : u.presented = none := by rw [presented, h]

theorem UnitState.isSome_presented : u.presented.isSome = (u.slot.isFull && u.wait == 0) := by
  rw [presented]
  cases u.slot with
  | empty => rfl
  | full r => cases u.wait <;> rfl

end unit

theorem encRspValid_eq (s : State) : encRspValid s = (s.enc.presented.isSome && !s.pins.rst) := by
  rw [UnitState.isSome_presented, encRspValid]

theorem decRspValid_eq (s : State) : decRspValid s = (s.dec.presented.isSome && !s.pins.rst) := by
  rw [UnitState.isSome_presented, decRspValid]

theorem encRspPayload_eq (s : State) : encRspPayload s = if s.pins.rst then none else s.enc.presented := by
  rw [encRspPayload, encRspValid, UnitState.presented]
  cases s.enc.slot <;> cases s.pins.rst <;> simp

theorem decRspPayload_eq (s : State) : decRspPayload s = if s.pins.rst then none else s.dec.presented := by
  rw [decRspPayload, decRspValid, UnitState.presented]
  cases s.dec.slot <;> cases s.pins.rst <;> simp

/-! ### One edge of a unit, by its side of the ports -/

/-- What an edge with `rst` at 0 does to a unit that answers `q` with `f q`, and to its record: an EMPTY slot accepts the
request on the port when it is `valid`; a response that is presented is delivered to a `ready` host; any other FULL slot
holds its response and comes one edge nearer to presenting it. `UnitEdge` says the same without the conditions at the
ports and without the latency. -/
inductive PortEdge {ρ α ω : Type} (f : ρ → α) (valid : Bool) (q : ρ) (ready : Bool) (u : UnitState α ω)
    (log : List (Event ρ α)) : UnitState α ω → List (Event ρ α) → Prop where
  | accept (u' : UnitState α ω) : u.slot = .empty → valid = true → u'.slot = .full (f q) →
      PortEdge f valid q ready u log u' (.req q :: log)
  | rest (u' : UnitState α ω) : u.slot = .empty → valid = false → u'.slot = .empty →
      PortEdge f valid q ready u log u' log
  | deliver (r : α) (u' : UnitState α ω) : u.slot = .full r → u.wait = 0 ∧ ready = true → u'.slot = .empty →
      PortEdge f valid q ready u log u' (.rsp r :: log)
  | hold (r : α) (u' : UnitState α ω) : u.slot = .full r → (ready = true → u.wait ≠ 0) → u'.slot = .full r →
      u'.wait = u.wait - 1 → PortEdge f valid q ready u log u' log

theorem encNext_portEdge (p : Pins) (w : EncWork) (u : EncUnit) (log : List (Event Value EncRsp)) :
    PortEdge encodeRsp p.encReqValid p.encReqValue p.encRspReady u log (encNext p w u log).1 (encNext p w u log).2 := by
  rw [encNext]
  split
  case h_1 hslot =>
    split
    case isTrue hvalid => exact .accept _ hslot hvalid rfl
    case isFalse hvalid => exact .rest _ hslot (Bool.eq_false_iff.mpr hvalid) hslot
  case h_2 r hslot =>
    split
    case isTrue htaken => exact .deliver r _ hslot htaken rfl
    case isFalse htaken => exact .hold r _ hslot (fun hready hwait => htaken ⟨hwait, hready⟩) hslot rfl

theorem decNext_portEdge (p : Pins) (w : DecWork) (u : DecUnit) (log : List (Event DecReq DecRsp)) :
    PortEdge decodeReq p.decReqValid ⟨p.decReqLen, p.decReqBuf⟩ p.decRspReady u log
      (decNext p w u log).1 (decNext p w u log).2 := by
  rw [decNext]
  split
  case h_1 hslot =>
    split
    case isTrue hvalid => exact .accept _ hslot hvalid rfl
    case isFalse hvalid => exact .rest _ hslot (Bool.eq_false_iff.mpr hvalid) hslot
  case h_2 r hslot =>
    split
    case isTrue htaken => exact .deliver r _ hslot htaken rfl
    case isFalse htaken => exact .hold r _ hslot (fun hready hwait => htaken ⟨hwait, hready⟩) hslot rfl

theorem step_portEdges {s t : State} (hstep : step s = .next t) (hr : s.pins.rst = false) :
    PortEdge encodeRsp s.pins.encReqValid s.pins.encReqValue s.pins.encRspReady s.enc s.encLog t.enc t.encLog ∧
    PortEdge decodeReq s.pins.decReqValid ⟨s.pins.decReqLen, s.pins.decReqBuf⟩ s.pins.decRspReady s.dec s.decLog
      t.dec t.decLog ∧
    t.inputs = s.inputs.tail := by
  rcases step_cases hstep with ⟨hr', -⟩ | ⟨-, we, wd, -, -, rfl⟩
  · rw [hr] at hr'; cases hr'
  · exact ⟨encNext_portEdge _ _ _ _, decNext_portEdge _ _ _ _, rfl⟩

namespace PortEdge
variable {ρ α ω : Type} {f : ρ → α} {valid ready : Bool} {q : ρ} {u u' : UnitState α ω} {log log' : List (Event ρ α)}

/-- What an edge adds to the record is exactly the transfer on a channel with valid and ready both 1. -/
theorem log_eq (h : PortEdge f valid q ready u log u' log') :
    log' = (if valid && !u.slot.isFull then [.req q] else if ready then u.presented.toList.map .rsp else []) ++ log := by
  cases h with
  | accept u' hslot hvalid _ => simp [hslot, hvalid]
  | rest u' hslot hvalid _ => simp [hvalid, UnitState.presented_of_empty hslot]
  | deliver r u' hslot htaken _ => simp [UnitState.presented, hslot, htaken]
  | hold r u' hslot hnot _ _ => simpa [UnitState.presented, hslot] using hnot

theorem slot_eq (h : PortEdge f valid q ready u log u' log') :
    u'.slot = if valid && !u.slot.isFull then .full (f q)
      else if ready && u.presented.isSome then .empty else u.slot := by
  rw [UnitState.isSome_presented]
  cases h with
  | accept u' hslot hvalid hslot' => simp [hslot, hvalid, hslot']
  | rest u' hslot hvalid hslot' => simp [hslot, hvalid, hslot']
  | deliver r u' hslot htaken hslot' => simp [hslot, htaken, hslot']
  | hold r u' hslot hnot hslot' _ => simpa [hslot, hslot'] using hnot

/-- A FULL slot whose response is not transferred holds it, one edge nearer to presenting it. -/
theorem held {r : α} (h : PortEdge f valid q ready u log u' log') (hslot : u.slot = .full r)
    (hnot : ready = true → u.wait ≠ 0) : u'.slot = .full r ∧ u'.wait = u.wait - 1 := by
  cases h with
  | accept u' hempty _ _ => rw [hslot] at hempty; cases hempty
  | rest u' hempty _ _ => rw [hslot] at hempty; cases hempty
  | deliver r' u' _ htaken _ =>
    obtain ⟨hwait, hready⟩ := htaken
    exact absurd hwait (hnot hready)
  | hold r' u' hslot' _ hheld hwait => exact ⟨hheld.trans (hslot'.symm.trans hslot), hwait⟩

theorem presented_of_not_ready {r : α} (h : PortEdge f valid q ready u log u' log') (hpres : u.presented = some r)
    (hready : ready = false) : u'.presented = some r := by
  obtain ⟨hslot, hwait⟩ := UnitState.presented_eq_some_iff.mp hpres
  obtain ⟨hslot', hwait'⟩ := h.held hslot (by simp [hready])
  exact UnitState.presented_eq_some_iff.mpr ⟨hslot', by rw [hwait', hwait]⟩

/-- An EMPTY slot delivers nothing. -/
theorem receivedSince_of_empty (h : PortEdge f valid q ready u log u' log') (hslot : u.slot = .empty) :
    receivedSince log' = receivedSince log := by
  rw [h.log_eq, UnitState.presented_of_empty hslot]
  cases valid <;> cases ready <;> simp [hslot, receivedSince]

end PortEdge

/-! ### Transfers -/

/-- Settles O46: RESET with `rst` at 1, and otherwise the edge of each unit. -/
theorem transferExactlyOnValidAndReady : Obligations.TransferExactlyOnValidAndReady := by
  intro s t hstep
  cases hr : s.pins.rst
  · obtain ⟨henc, hdec, -⟩ := step_portEdges hstep hr
    simp only [henc.log_eq, henc.slot_eq, hdec.log_eq, hdec.slot_eq, encReqReady, decReqReady, encRspPayload_eq,
      decRspPayload_eq, encRspValid_eq, decRspValid_eq, hr]
    simp [decodeReq]
  · rw [step_of_rst hr] at hstep
    cases hstep
    exact ⟨rfl, rfl, rfl, rfl⟩

/-- Settles O48: an edge at which the response is transferred empties the slot, and any other holds it. -/
theorem fullSlotHoldsUntilTaken : Obligations.FullSlotHoldsUntilTaken := by
  intro s t hstep hr
  obtain ⟨-, henc, -, hdec⟩ := transferExactlyOnValidAndReady s t hstep
  constructor
  · intro r hslot
    have hready : encReqReady s = false := by simp [encReqReady, hslot]
    refine ⟨hready, fun h => ?_, fun h => ?_⟩ <;> simp [henc, hr, hready, hslot, Bool.and_comm, h]
  · intro r hslot
    have hready : decReqReady s = false := by simp [decReqReady, hslot]
    refine ⟨hready, fun h => ?_, fun h => ?_⟩ <;> simp [hdec, hr, hready, hslot, Bool.and_comm, h]

/-! ### A presented response -/

theorem encRspValid_iff {s : State} : encRspValid s = true ↔ (∃ r, s.enc.presented = some r) ∧ s.pins.rst = false := by
  simp [encRspValid_eq, Option.isSome_iff_exists]

theorem decRspValid_iff {s : State} : decRspValid s = true ↔ (∃ r, s.dec.presented = some r) ∧ s.pins.rst = false := by
  simp [decRspValid_eq, Option.isSome_iff_exists]

theorem slot_full_of_encRspValid {s : State} (h : encRspValid s = true) : ∃ r, s.enc.slot = .full r := by
  obtain ⟨⟨r, hpres⟩, -⟩ := encRspValid_iff.mp h
  obtain ⟨hslot, -⟩ := UnitState.presented_eq_some_iff.mp hpres
  exact ⟨r, hslot⟩

theorem slot_full_of_decRspValid {s : State} (h : decRspValid s = true) : ∃ r, s.dec.slot = .full r := by
  obtain ⟨⟨r, hpres⟩, -⟩ := decRspValid_iff.mp h
  obtain ⟨hslot, -⟩ := UnitState.presented_eq_some_iff.mp hpres
  exact ⟨r, hslot⟩

/-- Settles O47: what a unit presents to a host that is not ready it presents after the edge too; and it presents the
response of a FULL slot, which is not ready for a request. -/
theorem presentedResponseIsHeld : Obligations.PresentedResponseIsHeld := by
  refine ⟨fun s t hstep hr ht => ?_, fun s => ?_⟩
  · obtain ⟨henc, hdec, -⟩ := step_portEdges hstep hr
    refine ⟨fun hvalid hready => ?_, fun hvalid hready => ?_⟩
    · obtain ⟨⟨r, hpres⟩, -⟩ := encRspValid_iff.mp hvalid
      have hpres' := henc.presented_of_not_ready hpres hready
      exact ⟨encRspValid_iff.mpr ⟨⟨r, hpres'⟩, ht⟩, by simp [encRspPayload_eq, hr, ht, hpres, hpres']⟩
    · obtain ⟨⟨r, hpres⟩, -⟩ := decRspValid_iff.mp hvalid
      have hpres' := hdec.presented_of_not_ready hpres hready
      exact ⟨decRspValid_iff.mpr ⟨⟨r, hpres'⟩, ht⟩, by simp [decRspPayload_eq, hr, ht, hpres, hpres']⟩
  · refine ⟨slot_full_of_encRspValid, fun hready => ?_, slot_full_of_decRspValid, fun hready => ?_⟩
    · rw [encReqReady, Bool.and_eq_true, Bool.not_eq_true'] at hready
      simp [encRspValid, hready]
    · rw [decReqReady, Bool.and_eq_true, Bool.not_eq_true'] at hready
      simp [decRspValid, hready]

/-! ### Reset -/

/-- Beside EMPTY slots no response is received, be it an edge of the units or RESET. -/
theorem receivedSince_step_of_empty {s t : State} (hstep : step s = .next t) (henc : s.enc.slot = .empty)
    (hdec : s.dec.slot = .empty) (hel : receivedSince s.encLog = []) (hdl : receivedSince s.decLog = []) :
    receivedSince t.encLog = [] ∧ receivedSince t.decLog = [] := by
  cases hr : s.pins.rst
  · obtain ⟨ee, ed, -⟩ := step_portEdges hstep hr
    exact ⟨(ee.receivedSince_of_empty henc).trans hel, (ed.receivedSince_of_empty hdec).trans hdl⟩
  · rw [step_of_rst hr] at hstep
    cases hstep
    exact ⟨rfl, rfl⟩

/-- Settles O2: the outputs by `rst`, and the step by RESET, after which both slots are EMPTY. -/
theorem resetEmptiesBothSlotsAndDropsResponses : Obligations.ResetEmptiesBothSlotsAndDropsResponses := by
  intro s hr
  refine ⟨by simp [encReqReady, hr], by simp [decReqReady, hr], by simp [encRspValid, hr], by simp [decRspValid, hr],
    resetUnits s.nextCycle, step_of_rst hr, rfl, rfl, rfl, rfl, rfl, rfl, rfl, rfl, rfl, fun ht => ?_, fun u hu => ?_⟩
  · simp [encReqReady, decReqReady, ht]
  · exact receivedSince_step_of_empty hu rfl rfl rfl rfl

/-! ### Service -/

theorem run_succ_of_step {M : Host.Core} {s t : M.State} (h : M.step s = .next t) (n : Nat) :
    M.run (n + 1) s = M.run n t := by
  rw [Host.Core.run, h]

/-- A state of a run whose inputs hold no reset. -/
def RunsWithoutReset (s : State) : Prop := Inv s ∧ ∀ p ∈ s.inputs, p.rst = false

theorem RunsWithoutReset.pins_rst {s : State} (h : RunsWithoutReset s) : s.pins.rst = false := by
  obtain ⟨-, hin⟩ := h
  unfold State.pins
  cases hi : s.inputs with
  | nil => rfl
  | cons p ps => exact hin p (by rw [hi]; exact List.mem_cons_self)

/-- Such a state answers another one, after the edge of each unit. -/
theorem RunsWithoutReset.answers {s : State} (h : RunsWithoutReset s) :
    ∃ t, step s = .next t ∧ RunsWithoutReset t := by
  have hr := h.pins_rst
  obtain ⟨hinv, hin⟩ := h
  obtain ⟨t, ht⟩ := noStepOfARunStops s hinv
  obtain ⟨-, -, htail⟩ := step_portEdges ht hr
  refine ⟨t, ht, everyStepKeepsTheRunInvariant s t hinv ht, fun p hp => hin p ?_⟩
  exact List.mem_of_mem_tail (htail ▸ hp)

/-- A unit whose FULL slot holds its response, one edge nearer at every step, presents it after `wait` edges. -/
theorem RunsWithoutReset.run_presents {α ω : Type} {unit : State → UnitState α ω} {r : α}
    (hheld : ∀ {a b : State}, step a = .next b → a.pins.rst = false → (unit a).slot = .full r → (unit a).wait ≠ 0 →
      (unit b).slot = .full r ∧ (unit b).wait = (unit a).wait - 1)
    {s : State} (hs : RunsWithoutReset s) (hslot : (unit s).slot = .full r) :
    ∃ t : State, Sys2Proof.core.run (unit s).wait s = .next t ∧ t.pins.rst = false ∧ (unit t).presented = some r := by
  induction hn : (unit s).wait generalizing s with
  | zero => exact ⟨s, rfl, hs.pins_rst, UnitState.presented_eq_some_iff.mpr ⟨hslot, hn⟩⟩
  | succ n ih =>
    obtain ⟨a, ha, hrun⟩ := hs.answers
    obtain ⟨hslot', hwait⟩ := hheld ha hs.pins_rst hslot (by omega)
    obtain ⟨t, ht, hr, hpres⟩ := ih hrun hslot' (by omega)
    exact ⟨t, (run_succ_of_step (M := Sys2Proof.core) ha n).trans ht, hr, hpres⟩

/-- Settles O49: the drawn latency counts down to a presented response, and the transfers of the next edge. -/
theorem requestsAndResponsesAreServed : Obligations.RequestsAndResponsesAreServed := by
  refine ⟨fun s r hinv hslot hin => ?_, fun s r hinv hslot hin => ?_, fun s hinv hr => ?_⟩
  · obtain ⟨t, ht, hr, hpres⟩ := RunsWithoutReset.run_presents (unit := State.enc)
      (fun hstep hr hslot hwait =>
        let ⟨hedge, _, _⟩ := step_portEdges hstep hr; hedge.held hslot fun _ => hwait) ⟨hinv, hin⟩ hslot
    exact ⟨t, ht, by simp [encRspPayload_eq, hr, hpres]⟩
  · obtain ⟨t, ht, hr, hpres⟩ := RunsWithoutReset.run_presents (unit := State.dec)
      (fun hstep hr hslot hwait =>
        let ⟨_, hedge, _⟩ := step_portEdges hstep hr; hedge.held hslot fun _ => hwait) ⟨hinv, hin⟩ hslot
    exact ⟨t, ht, by simp [decRspPayload_eq, hr, hpres]⟩
  · obtain ⟨t, ht⟩ := noStepOfARunStops s hinv
    obtain ⟨-, henc, -, hdec⟩ := transferExactlyOnValidAndReady s t ht
    refine ⟨t, ht, fun hslot hvalid => ?_, fun hslot hvalid => ?_, fun hvalid hready => ?_, fun hvalid hready => ?_⟩
    · simp [henc, hr, encReqReady, hslot, hvalid]
    · simp [hdec, hr, decReqReady, hslot, hvalid]
    · obtain ⟨r, hslot⟩ := slot_full_of_encRspValid hvalid
      simp [henc, hr, encReqReady, hslot, hvalid, hready]
    · exact dec_slot_of_taken ht hr hvalid hready

end Sys2Proof.Machine
end

section
/-! PROOF. The step after the placement of a table word (log entry 7): with both slots EMPTY and nothing else presented,
the edge is the one instruction that was placed. -/

namespace Sys2Proof.Machine

theorem andThen_next_right (o : Outcome) : andThen o .next = o := by cases o <;> rfl

/-- Beside EMPTY slots the response channels do nothing, so the edge ends with the requests. -/
theorem step_of_empty_slots {s : State} (hr : s.pins.rst = false) (henc : s.enc.slot = .empty)
    (hdec : s.dec.slot = .empty) : step s =
    andThen (runEncLoop s.nextCycle) fun s₁ =>
    andThen (runDecLoop s₁) fun s₂ =>
    andThen (runFetched s.pins.encFetch s₂) (runFetched s.pins.decFetch) := by
  have hrsp (t : State) : decRspEdge s (encRspEdge s t) = t := by
    simp [decRspEdge, encRspEdge, decRspValid, encRspValid, henc, hdec]
  simp only [step, clockEdge, hr, Bool.false_eq_true, if_false, hrsp, andThen_next_right]

theorem byteAt_setWidth_zero (b : Byte) : byteAt (BitVec.setWidth 120 b) 0 = b := by
  apply BitVec.eq_of_getLsbD_eq
  intro j hj
  rw [byteAt_getLsbD _ _ _ hj, BitVec.getLsbD_setWidth, Nat.mul_zero, Nat.zero_add, decide_eq_true (by omega),
    Bool.true_and]

/-- The step after the placement of a payload runs the instruction that the payload is. -/
theorem step_placePacket_reset (p : Packet) :
    step (placePacket p State.reset) = exec (decodePacket p) (placePacket p State.reset).nextCycle := by
  have hr : (placePacket p State.reset).pins.rst = false := by cases p <;> rfl
  have hidle : runEncLoop (placePacket p State.reset).nextCycle = .next (placePacket p State.reset).nextCycle := by
    cases p <;> rfl
  rw [step_of_empty_slots hr (by simp [State.reset]) (by simp [State.reset]), hidle, andThen_next]
  cases p with
  | encReq w =>
    show andThen (exec (decodePacket (.encReq w)) (placePacket (.encReq w) State.reset).nextCycle) .next = _
    exact andThen_next_right _
  | decReq w =>
    have hw : w.extractLsb' 120 4 ++ w.extractLsb' 0 120 = w := extract_append_extract (n := 4) (m := 120) w
    show exec (decodePacket (.decReq (w.extractLsb' 120 4 ++ w.extractLsb' 0 120)))
      (placePacket (.decReq w) State.reset).nextCycle = _
    rw [hw]
  | wireByte b =>
    show andThen (runDecLoop (placePacket (.wireByte b) State.reset).nextCycle) .next = _
    rw [andThen_next_right]
    obtain ⟨-, hpass⟩ := stepRunsTheDecodedInstructions
    refine hpass _ (BitVec.setWidth 120 b) 1 0 0 _ rfl (by decide) ?_
    rw [byteAt_setWidth_zero]
    exact decode_toBytes (.wireByte b)

/-- Settles O45: a word that decodes is a payload, and the payload is placed. -/
theorem placedInstructionRunsInTheNextStep : Obligations.PlacedInstructionRunsInTheNextStep := by
  intro nbits w i h
  rw [decodeTableWord, Option.map_eq_some_iff] at h
  obtain ⟨p, hp, rfl⟩ := h
  rw [State.withFetchWord, hp]
  exact step_placePacket_reset p

end Sys2Proof.Machine
end
